-- ==== Sys2Proof/Word.lean ====
section
/-! DEFINITION. The word types of SLFC (spec/00_scope.md rules R6, R8): a command word, and the registers' formats as
bit vectors of the widths the spec gives them. -/

namespace Sys2Proof

/-- A 32-bit command word or read-port word (R62, R90). -/
abbrev Word := BitVec 32

/-- A hue in format UQ0.16: the integer X stands for X / 65536, range [0, 1) (R8). -/
abbrev Hue := BitVec 16

/-- A value in format UQ1.16c: 17 bits, legal range 0 .. 65536 (R8). -/
abbrev UnitVal := BitVec 17

/-- A 12-bit component, 0 .. 4095, full scale 4095 (R8, R20). -/
abbrev Level := BitVec 12

end Sys2Proof
end

