-- ==== Sys2Proof/Config.lean ====
section
/-! DEFINITION. The implementation parameters of SLFC (spec/00_scope.md rule R5): the build-time constants `NCH`,
`BAND_EN`, `BAND_LO`, `BAND_HI`, and the two OPEN timing parameters. -/

namespace Sys2Proof

/-- The build-time constants of R5. No command and no reset changes them (R4 item 5, R251). DESIGN CHOICE, safe: they
travel with the state as its field `build`, so that one step function serves every build; log 1. -/
structure Config where
  /-- `NCH`, the number of channels, 1 to 256. -/
  nch : Nat
  /-- `BAND_EN`, the forbidden hue band policy is enabled. -/
  bandEn : Bool
  /-- `BAND_LO`, the lower bound of the forbidden band. -/
  bandLo : Hue
  /-- `BAND_HI`, the upper bound of the forbidden band. -/
  bandHi : Hue
  deriving DecidableEq, Repr

namespace Config

/-- The defaults of R5: 8 channels, band enabled, (10878, 32768). -/
def default : Config := { nch := 8, bandEn := true, bandLo := 10878, bandHi := 32768 }

/-- The constraints of R5: `NCH` in 1 .. 256, `0 <= BAND_LO < BAND_HI <= 65535`. -/
abbrev Legal (c : Config) : Prop := 1 ≤ c.nch ∧ c.nch ≤ 256 ∧ c.bandLo.toNat < c.bandHi.toNat

/-- `NBITS`, the bits of one frame on the link, `36 * NCH` (R5). -/
def nbits (c : Config) : Nat := 36 * c.nch

/-- The least `T_PHASE` is above zero and no other value is known (R5: OPEN). Free value, log 7. -/
opaque tPhasePred : Nat

/-- The least `T_STROBE` is above zero and no other value is known (R5: OPEN). Free value, log 7. -/
opaque tStrobePred : Nat

/-- `T_PHASE`, the least time one shift phase is held: OPEN, greater than 0, no upper bound (R5). -/
def tPhase : Nat := tPhasePred + 1

/-- `T_STROBE`, the least time the strobe is held asserted: OPEN, greater than 0, no upper bound (R5). -/
def tStrobe : Nat := tStrobePred + 1

end Config

end Sys2Proof
end

