-- ==== Sys2Proof/Syntax.lean ====
section
/-! DEFINITION. The commands of SLFC, one constructor per row of spec/opcode_table.json (spec/30_encoding.md rules R92
and R98), and the causes a word is rejected for (spec/60_exceptions.md rule R226). -/

namespace Sys2Proof

/-- The seventeen commands of R98, with the operand fields of their format (R92): `ch` is the 8-bit channel field (R94),
`imm` the raw 16-bit (R95) or 24-bit (R96) immediate field. -/
inductive Instr where
  /-- `NOP`, format Z (R216). -/
  | nop
  /-- `CLEAR`, format Z (R121). -/
  | clear
  /-- `XMIT`, format Z (R141). -/
  | xmit
  /-- `SETB ch, imm16`, format CI (R123). -/
  | setb (ch : BitVec 8) (imm : BitVec 16)
  /-- `SETR ch, imm16`, format CI (R124). -/
  | setr (ch : BitVec 8) (imm : BitVec 16)
  /-- `SETG ch, imm16`, format CI (R125). -/
  | setg (ch : BitVec 8) (imm : BitVec 16)
  /-- `PUTPX ch`, format C (R126). -/
  | putpx (ch : BitVec 8)
  /-- `GETPX ch`, format C (R127). -/
  | getpx (ch : BitVec 8)
  /-- `LDH imm24`, format I (R173). -/
  | ldh (imm : BitVec 24)
  /-- `LDS imm24`, format I (R174). -/
  | lds (imm : BitVec 24)
  /-- `LDV imm24`, format I (R175). -/
  | ldv (imm : BitVec 24)
  /-- `LDHA imm24`, format I (R176). -/
  | ldha (imm : BitVec 24)
  /-- `LDHB imm24`, format I (R177). -/
  | ldhb (imm : BitVec 24)
  /-- `LDF imm24`, format I (R178). -/
  | ldf (imm : BitVec 24)
  /-- `HSV2RGB`, format Z (R186). -/
  | hsv2rgb
  /-- `HLERP`, format Z (R193). -/
  | hlerp
  /-- `RGB2HSV`, format Z (R199). -/
  | rgb2hsv
  deriving DecidableEq, Repr

/-- The causes of a command error (R226). -/
inductive Cause where
  /-- `w[31:24]` is none of the seventeen opcodes (R230). -/
  | illegalOpcode
  /-- The channel field is `NCH` or more (R227). -/
  | badChannel
  /-- A must-be-zero field is not zero (R228). -/
  | reservedField
  deriving DecidableEq, Repr

/-- What decoding makes of a word: a command, or a rejection by its cause (R100). -/
inductive Decoded where
  /-- The word is this command. -/
  | command (i : Instr)
  /-- The word is rejected for this cause. -/
  | rejected (c : Cause)
  deriving DecidableEq, Repr

end Sys2Proof
end

