-- ==== Sys2Proof/WellFormed.lean ====
section
/-! DEFINITION. When a command is well formed in a build (spec/30_encoding.md rules R94, R100 (3)): its channel field, if
it has one, names a channel of the build. Every other operand pattern is legal (R95, R96). -/

namespace Sys2Proof

/-- The channel field of a command of format C or CI (R92). -/
def Instr.channel : Instr → Option (BitVec 8)
  | .setb ch _ => some ch
  | .setr ch _ => some ch
  | .setg ch _ => some ch
  | .putpx ch => some ch
  | .getpx ch => some ch
  | .nop => none
  | .clear => none
  | .xmit => none
  | .ldh _ => none
  | .lds _ => none
  | .ldv _ => none
  | .ldha _ => none
  | .ldhb _ => none
  | .ldf _ => none
  | .hsv2rgb => none
  | .hlerp => none
  | .rgb2hsv => none

/-- A command is well formed in a build of `nch` channels when its channel, if any, is below `nch` (R94). -/
def Instr.wf (nch : Nat) (i : Instr) : Bool :=
  match i.channel with
  | some ch => decide (ch.toNat < nch)
  | none => true

end Sys2Proof
end

