-- ==== Sys2Proof/Decode.lean ====
section
/-! DEFINITION. Decoding and encoding of command words (spec/30_encoding.md rules R92 to R101). Decoding is total: every
32-bit word is a command or is rejected by its cause. -/

namespace Sys2Proof

/-- Field `op`, `w[31:24]` (R93). -/
def opOf (w : Word) : BitVec 8 := w.extractLsb' 24 8

/-- Field `ch`, `w[23:16]` (R94). -/
def chOf (w : Word) : BitVec 8 := w.extractLsb' 16 8

/-- Field `imm16`, and the must-be-zero field `zero16`, `w[15:0]` (R95, R97). -/
def imm16Of (w : Word) : BitVec 16 := w.extractLsb' 0 16

/-- Field `imm24`, and the must-be-zero field `zero24`, `w[23:0]` (R96, R97). -/
def imm24Of (w : Word) : BitVec 24 := w.extractLsb' 0 24

/-- A word of format Z: the command, unless `zero24` is not zero (R97). -/
def formatZ (w : Word) (i : Instr) : Decoded :=
  if imm24Of w = 0 then .command i else .rejected .reservedField

/-- A word of format C: the command on its channel, unless `zero16` is not zero (R97). -/
def formatC (w : Word) (f : BitVec 8 → Instr) : Decoded :=
  if imm16Of w = 0 then .command (f (chOf w)) else .rejected .reservedField

/-- A word of format CI (R92). -/
def formatCI (w : Word) (f : BitVec 8 → BitVec 16 → Instr) : Decoded := .command (f (chOf w) (imm16Of w))

/-- A word of format I (R92). -/
def formatI (w : Word) (f : BitVec 24 → Instr) : Decoded := .command (f (imm24Of w))

/-- Decoding by the opcode map R98, steps (1) and (2) of R100. The opcode is looked at first, then the must-be-zero
field. -/
def decode (w : Word) : Decoded :=
  match (opOf w).toNat with
  | 0x00 => formatZ w .nop
  | 0x01 => formatZ w .clear
  | 0x02 => formatZ w .xmit
  | 0x10 => formatCI w .setb
  | 0x11 => formatCI w .setr
  | 0x12 => formatCI w .setg
  | 0x14 => formatC w .putpx
  | 0x15 => formatC w .getpx
  | 0x20 => formatI w .ldh
  | 0x21 => formatI w .lds
  | 0x22 => formatI w .ldv
  | 0x23 => formatI w .ldha
  | 0x24 => formatI w .ldhb
  | 0x25 => formatI w .ldf
  | 0x30 => formatZ w .hsv2rgb
  | 0x31 => formatZ w .hlerp
  | 0x32 => formatZ w .rgb2hsv
  | _ => .rejected .illegalOpcode

/-- The whole classification of R100 for a build of `nch` channels: `decode`, then step (3), the channel check. -/
def classify (nch : Nat) (w : Word) : Decoded :=
  match decode w with
  | .command i => if i.wf nch then .command i else .rejected .badChannel
  | .rejected c => .rejected c

/-- The word of a format Z command (R92). -/
def wordZ (op : BitVec 8) : Word := op ++ (0 : BitVec 24)

/-- The word of a format C command (R92). -/
def wordC (op : BitVec 8) (ch : BitVec 8) : Word := op ++ ch ++ (0 : BitVec 16)

/-- The word of a format CI command (R92). -/
def wordCI (op : BitVec 8) (ch : BitVec 8) (imm : BitVec 16) : Word := op ++ ch ++ imm

/-- The word of a format I command (R92). -/
def wordI (op : BitVec 8) (imm : BitVec 24) : Word := op ++ imm

/-- The encoder, from the opcode map R98. -/
def encode : Instr → Word
  | .nop => wordZ 0x00
  | .clear => wordZ 0x01
  | .xmit => wordZ 0x02
  | .setb ch imm => wordCI 0x10 ch imm
  | .setr ch imm => wordCI 0x11 ch imm
  | .setg ch imm => wordCI 0x12 ch imm
  | .putpx ch => wordC 0x14 ch
  | .getpx ch => wordC 0x15 ch
  | .ldh imm => wordI 0x20 imm
  | .lds imm => wordI 0x21 imm
  | .ldv imm => wordI 0x22 imm
  | .ldha imm => wordI 0x23 imm
  | .ldhb imm => wordI 0x24 imm
  | .ldf imm => wordI 0x25 imm
  | .hsv2rgb => wordZ 0x30
  | .hlerp => wordZ 0x31
  | .rgb2hsv => wordZ 0x32

/-- The cause codes recorded in `ERRCODE` (R226). -/
def Cause.code : Cause → BitVec 2
  | .illegalOpcode => 1
  | .badChannel => 2
  | .reservedField => 3

/-- The command word a host offers when its `nbits` bits are `w` and every bit above them is zero; a command is exactly
32 bits long (R90), so anything longer is no word. -/
def tableWord (nbits w : Nat) : Option Word :=
  if w % 2 ^ nbits < 4294967296 then some (BitVec.ofNat 32 (w % 2 ^ nbits)) else none

/-- The command read from a row of spec/opcode_table.json whose bits are `w`. -/
def decodeTableWord (nbits w : Nat) : Option Instr :=
  match tableWord nbits w with
  | none => none
  | some x =>
    match decode x with
    | .command i => some i
    | .rejected _ => none

end Sys2Proof
end

