-- ==== Sys2Proof/Machine/State.lean ====
section
/-! DEFINITION. The state of SLFC as plain data (spec/10_state.md), the reasons a step can stop, and the state right
after reset (rule R43). -/

namespace Sys2Proof.Machine

/-- A component of a channel: blue, red, green in the buffer's order (R20). -/
inductive Component where
  | blue
  | red
  | green
  deriving DecidableEq, Repr

/-- The frame buffer `FB` (R20) as a list of (cell number, cell value) in canonical form: cell numbers strictly rising,
no entry equal to what an unlisted cell reads as. The cell number of `FB[c][k]` is `3 * c + k`; log 8. -/
abbrev Memory := List (Nat × Level)

/-- The twelve colour registers (R23, R24, R25). -/
structure Regs where
  /-- `H`, hue operand. -/
  h : Hue
  /-- `S`, saturation operand. -/
  s : UnitVal
  /-- `V`, value operand. -/
  v : UnitVal
  /-- `HA`, start anchor hue. -/
  ha : Hue
  /-- `HB`, end anchor hue. -/
  hb : Hue
  /-- `FR`, progress between the anchors. -/
  fr : UnitVal
  /-- `R`, red result. -/
  r : Level
  /-- `G`, green result. -/
  g : Level
  /-- `B`, blue result. -/
  b : Level
  /-- `DH`, diagnostic hue. -/
  dh : Hue
  /-- `DS`, diagnostic saturation. -/
  ds : UnitVal
  /-- `DV`, diagnostic value. -/
  dv : UnitVal
  deriving DecidableEq, Repr

/-- The four status flags (R30 to R34) and the error record (R36, R37). -/
structure Status where
  /-- `BUSY` (R33). -/
  busy : Bool
  /-- `ERR` (R31). -/
  err : Bool
  /-- `WRAP` (R32). -/
  wrap : Bool
  /-- `DHV` (R34). -/
  dhv : Bool
  /-- `ERRCODE`, bits 1:0; bits 31:2 read as 0 (R36). -/
  errcode : BitVec 2
  /-- `ERRINFO` (R37). -/
  errinfo : Word
  deriving DecidableEq, Repr

/-- `SER`, what the serialiser is doing (R28); the fourth 2-bit pattern is unreachable and has no constructor. -/
inductive SerMode where
  | idle
  | shift
  | strobe
  deriving DecidableEq, Repr

/-- The serialiser position (R28). The counters are counts; `Safety.lean` says which values are legal. -/
structure Serialiser where
  /-- `SER`. -/
  mode : SerMode
  /-- `CH`, 8 bits, 0 .. NCH-1. -/
  ch : Nat
  /-- `COMP`, 2 bits. -/
  comp : Component
  /-- `BIT`, 4 bits, 0 .. 11. -/
  bit : Nat
  /-- `PH`, 2 bits, 0 .. 2 in `SHIFT`, 0 .. 1 in `STROBE`. -/
  ph : Nat
  deriving DecidableEq, Repr

/-- The four output pins (R29); `true` is level 1. -/
structure Pins where
  /-- `SDATA`. -/
  sdata : Bool
  /-- `SCLK`. -/
  sclk : Bool
  /-- `LATCH`. -/
  latch : Bool
  /-- `BLANK`. -/
  blank : Bool
  deriving DecidableEq, Repr

/-- The chain observer, outside the block (R41). -/
structure Chain where
  /-- `SR`, the shift register of `NBITS` bits, as a number below `2 ^ NBITS`. -/
  sr : Nat
  /-- `VIS`, the displayed frame, none before the first latch. -/
  vis : Option Nat
  /-- `OE`, the chain's light output is enabled. -/
  oe : Bool
  deriving DecidableEq, Repr

/-- The host's side of the ports (R9 (a), R42). These three are inputs, not state of the block; logs 2 and 3. -/
structure HostSide where
  /-- The command words the host still offers, the offered one first (R107). -/
  offered : List Word
  /-- The level of `RESET` in force, as the last step sampled it (R250). -/
  resetPin : Bool
  /-- The levels the host drives on `RESET` in the steps to come, one for each; released after the last (R42). -/
  resetIn : List Bool
  deriving DecidableEq, Repr

/-- The whole machine: the block, its link history and observer, and the host's inputs. -/
structure State where
  /-- The build-time constants (R5); no step changes them. -/
  build : Config
  /-- `FB` (R20). -/
  fb : Memory
  /-- The colour registers (R23 to R25). -/
  regs : Regs
  /-- The flags and the error record (R30 to R37). -/
  stat : Status
  /-- The serialiser position (R28). -/
  ser : Serialiser
  /-- The output pins (R29). -/
  pins : Pins
  /-- `TRACE`, the history of the pins, oldest first (R40). -/
  trace : List Pins
  /-- The chain observer (R41). -/
  chain : Chain
  /-- The host's inputs. -/
  host : HostSide
  deriving DecidableEq, Repr

/-- Why a step stops. The spec stops the block nowhere (R10); the one reason here is for states it calls unreachable. -/
inductive Fault where
  /-- Raised by the serialiser's micro-step when `BUSY` is set and none of R144, R145, R146, R148, R150 is enabled: a
  position R28 gives no meaning to. Safe: no state that meets the invariant raises it. DESIGN CHOICE, log 9. -/
  | noMicroStep
  deriving DecidableEq, Repr

/-- Why an instruction has no meaning here. -/
inductive Refusal where
  /-- Raised by an arm of `exec` whose instruction is not modelled; no arm raises it. Safe. -/
  | notModelled (mnemonic : String)
  deriving DecidableEq, Repr

/-- What a step or a meaning answers. -/
abbrev Result := Host.Outcome State Fault Refusal

/-- The colour registers after reset: all 0 (R43). -/
def Regs.zero : Regs :=
  { h := 0, s := 0, v := 0, ha := 0, hb := 0, fr := 0, r := 0, g := 0, b := 0, dh := 0, ds := 0, dv := 0 }

/-- The flags and the error record after reset: all 0 (R43). -/
def Status.zero : Status :=
  { busy := false, err := false, wrap := false, dhv := false, errcode := 0, errinfo := 0 }

/-- The serialiser after reset, and whenever it is idle: `IDLE`, the counters 0 (R28, R43). -/
def Serialiser.idle : Serialiser := { mode := .idle, ch := 0, comp := .blue, bit := 0, ph := 0 }

/-- The pins after reset: all 0 (R43). -/
def Pins.low : Pins := { sdata := false, sclk := false, latch := false, blank := false }

/-- The state right after the first reset of a build, with the chain's shift register at `sr` (R43, R41: `SR` unknown,
`VIS = none`, `OE = 1`; the trace holds the entry of the reset). -/
def State.powerOn (build : Config) (sr : Nat) : State :=
  { build := build, fb := [], regs := Regs.zero, stat := Status.zero, ser := Serialiser.idle, pins := Pins.low,
    trace := [Pins.low], chain := { sr := sr, vis := none, oe := true },
    host := { offered := [], resetPin := false, resetIn := [] } }

/-- The machine right after reset, in the default build. DESIGN CHOICE, unsafe: `SR` of the chain, which R41 leaves
unknown, is 0 here; log 5. -/
def State.reset : State := State.powerOn Config.default 0

end Sys2Proof.Machine
end

