-- ==== Sys2Proof/Machine/Flags.lean ====
section
/-! DEFINITION. The flags of SLFC and the words they are read in (spec/10_state.md rules R30 to R39). There are no
arithmetic condition codes; each flag has one writer besides reset. -/

namespace Sys2Proof.Machine

/-- A flag as the bit it is read as. -/
def flagBit (b : Bool) : BitVec 1 := BitVec.ofBool b

/-- `STATUS`: bit 0 `BUSY`, bit 1 `ERR`, bit 2 `WRAP`, bit 3 `DHV`, the rest 0 (R35). -/
def statusWord (s : State) : Word :=
  (0 : BitVec 28) ++ flagBit s.stat.dhv ++ flagBit s.stat.wrap ++ flagBit s.stat.err ++ flagBit s.stat.busy

/-- `ERRCODE`: bits 1:0 the cause, the rest 0 (R36). -/
def errcodeWord (s : State) : Word := (0 : BitVec 30) ++ s.stat.errcode

/-- `CONFIG`: bits 8:0 `NCH`, bit 16 `BAND_EN`, the rest 0 (R38). -/
def configWord (c : Config) : Word :=
  (0 : BitVec 15) ++ flagBit c.bandEn ++ (0 : BitVec 7) ++ BitVec.ofNat 9 c.nch

/-- `BANDLO`: bits 15:0 `BAND_LO`, the rest 0 (R39). -/
def bandLoWord (c : Config) : Word := (0 : BitVec 16) ++ c.bandLo

/-- `BANDHI`: bits 15:0 `BAND_HI`, the rest 0 (R39). -/
def bandHiWord (c : Config) : Word := (0 : BitVec 16) ++ c.bandHi

/-- Write `BUSY` (R33). -/
def State.setBusy (b : Bool) (s : State) : State := { s with stat := { s.stat with busy := b } }

/-- Write `WRAP` (R32, R196). -/
def State.setWrap (b : Bool) (s : State) : State := { s with stat := { s.stat with wrap := b } }

/-- Write `DHV` (R34, R199). -/
def State.setDhv (b : Bool) (s : State) : State := { s with stat := { s.stat with dhv := b } }

end Sys2Proof.Machine
end

