-- ==== Sys2Proof/Machine/Link.lean ====
section
/-! DEFINITION. The link as pin levels, and the chain observer that stands for the listening devices
(spec/41_output_protocol.md rules R151, R158 to R161). -/

namespace Sys2Proof.Machine

/-- The component's index: 0 blue, 1 red, 2 green (R20). -/
def Component.index : Component → Nat
  | .blue => 0
  | .red => 1
  | .green => 2

/-- The component of an index, none for 3 and above (R20). -/
def Component.ofIndex : Nat → Option Component
  | 0 => some .blue
  | 1 => some .red
  | 2 => some .green
  | _ => none

/-- The components in the order they are sent: blue, red, green (R142). -/
def Component.sendOrder : List Component := [.blue, .red, .green]

/-- The three pin tuples of one bit: data phase, clock high, clock low (R146). -/
def bitTrace (d : Bool) : List Pins :=
  [{ sdata := d, sclk := false, latch := false, blank := false },
   { sdata := d, sclk := true, latch := false, blank := false },
   { sdata := d, sclk := false, latch := false, blank := false }]

/-- The two pin tuples of the strobe, with `e` the last bit sent (R148, R150). -/
def strobeTrace (e : Bool) : List Pins :=
  [{ sdata := e, sclk := false, latch := true, blank := true },
   { sdata := e, sclk := false, latch := false, blank := false }]

/-- `XmitTrace(bits)`: what one transmission appends to `TRACE` (R151). -/
def xmitTrace (bits : List Bool) : List Pins := bits.flatMap bitTrace ++ strobeTrace (bits.getLastD false)

/-- The observer's shift on a rising clock edge, modulo `2 ^ NBITS` (R159). -/
def Chain.shift (nbits : Nat) (prev cur : Pins) (sr : Nat) : Nat :=
  if !prev.sclk && cur.sclk then (2 * sr + cur.sdata.toNat) % 2 ^ nbits else sr

/-- What the observer does with one new entry of `TRACE`: R159, then R161. -/
def Chain.observe (nbits : Nat) (prev cur : Pins) (ch : Chain) : Chain :=
  let sr := Chain.shift nbits prev cur ch.sr
  { sr := sr, vis := if !prev.latch && cur.latch then some sr else ch.vis, oe := !cur.blank }

/-- The observer over a list of entries, `prev` the entry before them (R158). -/
def Chain.observeAll (nbits : Nat) : Pins → List Pins → Chain → Chain
  | _, [], ch => ch
  | prev, cur :: rest, ch => Chain.observeAll nbits cur rest (Chain.observe nbits prev cur ch)

/-- `CellOf(X, c, k)`: the bits `X[36*c + 12*(2-k) + 11 : 36*c + 12*(2-k)]` (R160). -/
def cellOf (x : Nat) (c : Nat) (k : Component) : Level :=
  BitVec.ofNat 12 (x / 2 ^ (36 * c + 12 * (2 - k.index)))

end Sys2Proof.Machine
end

