-- ==== Sys2Proof/Machine/Operands.lean ====
section
/-! DEFINITION. The operand forms of SLFC: how a 16-bit component immediate and a 24-bit fixed-point immediate become
values (spec/30_encoding.md R95, R96; spec/40_framebuffer_ops.md R122; spec/42_color_operands.md R171, R172). All
arithmetic is on exact integers and is narrowed once at the end (R6). -/

namespace Sys2Proof.Machine

/-- `sext_16` of an `imm16` field (R7, R95). -/
def sext16 (imm : BitVec 16) : Int := imm.toInt

/-- `sext_24` of an `imm24` field (R7, R96). -/
def sext24 (imm : BitVec 24) : Int := imm.toInt

/-- `clamp12`: 0 below 0, 4095 above 4095, the value otherwise (R122). -/
def clamp12 (x : Int) : Level :=
  if x < 0 then 0 else if 4095 < x then 4095 else BitVec.ofInt 12 x

/-- `wrap16`: the value modulo 65536, around the hue circle (R171). -/
def wrap16 (x : Int) : Hue := BitVec.ofInt 16 (x % 65536)

/-- `clip1`: the value clipped to 0 .. 65536 (R172). -/
def clip1 (x : Int) : UnitVal :=
  if x < 0 then 0 else if 65536 < x then 65536 else BitVec.ofInt 17 x

/-- The component operand of `SETB`, `SETR`, `SETG` (R122). -/
def componentOperand (imm : BitVec 16) : Level := clamp12 (sext16 imm)

/-- The operand of a hue load (R171). -/
def hueOperand (imm : BitVec 24) : Hue := wrap16 (sext24 imm)

/-- The operand of a saturation, value or progress load (R172). -/
def unitOperand (imm : BitVec 24) : UnitVal := clip1 (sext24 imm)

end Sys2Proof.Machine
end

