-- ==== Sys2Proof/Machine/Ops.lean ====
section
/-! DEFINITION. The named operations over the frame buffer, the registers, the pins and the error record: cell reads and
writes (spec/20_memory.md), `emit` (spec/10_state.md R40), raising a command error (spec/60_exceptions.md R229), and the
block's reset (spec/70_reset_and_hazards.md R250, R252). The block has no return from an exception (R238). -/

namespace Sys2Proof.Machine

/-- What an unlisted cell reads as: 0, the reset value of every cell (R43). -/
def Memory.blank : Level := 0

/-- `MemRead` by cell number (R7). -/
def Memory.read : Memory → Nat → Level
  | [], _ => Memory.blank
  | (a, v) :: m, x => if a = x then v else Memory.read m x

/-- `MemWrite` by cell number, keeping the canonical form (R7). -/
def Memory.write : Memory → Nat → Level → Memory
  | [], x, v => if v = Memory.blank then [] else [(x, v)]
  | (a, u) :: m, x, v =>
    if x < a then (if v = Memory.blank then (a, u) :: m else (x, v) :: (a, u) :: m)
    else if x = a then (if v = Memory.blank then m else (x, v) :: m)
    else (a, u) :: Memory.write m x v

/-- Zero every cell numbered below `n` in one update (R121). -/
def Memory.clearBelow (n : Nat) (m : Memory) : Memory := m.filter fun e => decide (n ≤ e.1)

/-- The canonical form of the entries from cell `lo` on: numbers strictly rising, no entry that an unlisted cell would
read as. -/
def Memory.wfFrom : Nat → Memory → Bool
  | _, [] => true
  | lo, (a, v) :: m => decide (lo ≤ a) && decide (v ≠ Memory.blank) && Memory.wfFrom (a + 1) m

/-- The canonical form of a frame buffer. -/
def Memory.wf (m : Memory) : Bool := Memory.wfFrom 0 m

/-- Every listed cell is numbered below `n`. -/
def Memory.below (n : Nat) (m : Memory) : Bool := m.all fun e => decide (e.1 < n)

/-- The cell number of `FB[c][k]` (log 8). -/
def cellAddr (c : Nat) (k : Component) : Nat := 3 * c + k.index

/-- `FB[c][k]` (R7, R20). -/
def State.cell (s : State) (c : Nat) (k : Component) : Level := s.fb.read (cellAddr c k)

/-- `MemWrite((c, k), 12, v)` (R7). -/
def State.writeCell (c : Nat) (k : Component) (v : Level) (s : State) : State :=
  { s with fb := s.fb.write (cellAddr c k) v }

/-- The entry before the next one of `TRACE`; `(0,0,0,0)` before the first ever (R158). -/
def State.lastPins (s : State) : Pins := s.trace.getLastD Pins.low

/-- `emit()`: append the pins to `TRACE` (R40), which the chain observer reads (R158). -/
def State.emit (s : State) : State :=
  { s with trace := s.trace ++ [s.pins],
           chain := Chain.observe s.build.nbits s.lastPins s.pins s.chain }

/-- `raise CmdError(code, w)` (R229): record the first error since reset, change nothing else. -/
def raiseCmdError (c : Cause) (w : Word) (s : State) : State :=
  if s.stat.err then s
  else { s with stat := { s.stat with err := true, errcode := c.code, errinfo := w } }

/-- A command on channel `c`: its effect when the channel exists, else `CmdError(BAD_CHANNEL)` with the command's own
word (R100 (3), R227). -/
def onChannel (i : Instr) (c : BitVec 8) (effect : State → State) (s : State) : Result :=
  if c.toNat < s.build.nch then .next (effect s)
  else .next (raiseCmdError .badChannel (encode i) s)

/-- The block's state at its reset values (R43, R250). The history, the chain and the host's inputs are not the
block's. -/
def blockReset (s : State) : State :=
  { s with fb := [], regs := Regs.zero, stat := Status.zero, ser := Serialiser.idle, pins := Pins.low }

/-- The level of `RESET` in the step to come: the next one the host drives, released when it drives none (R250). -/
def State.resetLevel (s : State) : Bool := s.host.resetIn.headD false

/-- The host's inputs once a step has sampled `RESET` at `level`. -/
def State.sampleReset (level : Bool) (s : State) : State :=
  { s with host := { s.host with resetPin := level, resetIn := s.host.resetIn.tail } }

/-- A step with `RESET` asserted (R250, R252): the block takes its reset values; the assertion, and only it, adds one
entry to `TRACE` (log 4). -/
def resetStep (s : State) : State :=
  if s.host.resetPin then blockReset (s.sampleReset true)
  else (blockReset (s.sampleReset true)).emit

/-- The host goes on to offer `ws` after the words it offers already (R107, R262). -/
def State.offer (ws : List Word) (s : State) : State :=
  { s with host := { s.host with offered := s.host.offered ++ ws } }

/-- The host's port once the offered word has been accepted: `ws` are the words still to come (R91). -/
def State.takeOffered (ws : List Word) (s : State) : State :=
  { s with host := { s.host with offered := ws } }

end Sys2Proof.Machine
end

