-- ==== Sys2Proof/Machine/Colour.lean ====
section
/-! DEFINITION. The colour computations `HSV2RGB`, `HLERP`, `RGB2HSV` (spec/43_color_convert.md). All arithmetic is on
exact integers, with division rounded toward minus infinity (R6), narrowed once at the end. -/

namespace Sys2Proof.Machine

/-- The sector of `Sector(H)`: `floor(6 * H / 65536) mod 6` (R187). -/
def sectorOf (h : Hue) : Nat := 6 * h.toNat / 65536 % 6

/-- The fraction of `Sector(H)`: `6 * H mod 65536` (R187). -/
def fractionOf (h : Hue) : Nat := 6 * h.toNat % 65536

/-- The four intermediate terms of R188. -/
structure Terms where
  vv : Int
  pp : Int
  qq : Int
  tt : Int
  deriving DecidableEq, Repr

/-- `scale(A) = floor(V * A * 4095 / 2^48)` (R188). -/
def scale (v a : Int) : Int := v * a * 4095 / 281474976710656

/-- `Terms(S, V, f)` (R188); 4294967296 is `2^32`. -/
def termsOf (s v f : Int) : Terms :=
  { vv := v * 4095 / 65536
    pp := scale v (4294967296 - 65536 * s)
    qq := scale v (4294967296 - f * s)
    tt := scale v (4294967296 - (65536 - f) * s) }

/-- `Assign`, the red term of a sector (R189). -/
def redOf (i : Nat) (t : Terms) : Int :=
  match i with
  | 0 => t.vv
  | 1 => t.qq
  | 2 => t.pp
  | 3 => t.pp
  | 4 => t.tt
  | _ => t.vv

/-- `Assign`, the green term of a sector (R189). -/
def greenOf (i : Nat) (t : Terms) : Int :=
  match i with
  | 0 => t.tt
  | 1 => t.vv
  | 2 => t.vv
  | 3 => t.qq
  | 4 => t.pp
  | _ => t.pp

/-- `Assign`, the blue term of a sector (R189). -/
def blueOf (i : Nat) (t : Terms) : Int :=
  match i with
  | 0 => t.pp
  | 1 => t.pp
  | 2 => t.tt
  | 3 => t.vv
  | 4 => t.vv
  | _ => t.qq

/-- The terms of the operand registers (R186). -/
def termsOfRegs (r : Regs) : Terms := termsOf r.s.toNat r.v.toNat (fractionOf r.h)

/-- `HSV2RGB` (R186). -/
def execHsv2rgb (s : State) : Result :=
  let i := sectorOf s.regs.h
  let t := termsOfRegs s.regs
  .next { s with regs := { s.regs with r := BitVec.ofInt 12 (redOf i t), g := BitVec.ofInt 12 (greenOf i t),
                                       b := BitVec.ofInt 12 (blueOf i t) } }

/-- `Cross(HA, HB)`: the anchors lie on opposite sides of the forbidden band, its bounds included (R194). -/
def crosses (c : Config) (ha hb : Hue) : Bool :=
  c.bandEn && decide (min ha.toNat hb.toNat ≤ c.bandLo.toNat) && decide (c.bandHi.toNat ≤ max ha.toNat hb.toNat)

/-- `Delta(HA, HB, cross)`: the signed distance travelled at progress 1 (R195). -/
def deltaOf (ha hb : Int) (cross : Bool) : Int :=
  if cross then (if ha < hb then hb - ha - 65536 else hb - ha + 65536) else hb - ha

/-- The interpolated hue `(HA + floor(d * FR / 65536)) mod 65536` (R193). -/
def lerpHue (ha d fr : Int) : Hue := BitVec.ofInt 16 ((ha + d * fr / 65536) % 65536)

/-- `HLERP` (R193, R196). -/
def execHlerp (s : State) : Result :=
  let cross := crosses s.build s.regs.ha s.regs.hb
  let d := deltaOf s.regs.ha.toNat s.regs.hb.toNat cross
  .next (State.setWrap cross { s with regs := { s.regs with h := lerpHue s.regs.ha.toNat d s.regs.fr.toNat } })

/-- `max(R, G, B)` (R199). -/
def maxOf (r g b : Int) : Int := max r (max g b)

/-- `min(R, G, B)` (R199). -/
def minOf (r g b : Int) : Int := min r (min g b)

/-- `DV` (R200). -/
def valueOf (mx : Int) : UnitVal := BitVec.ofInt 17 (mx * 65536 / 4095)

/-- `DS`, no division when the maximum is 0 (R200). -/
def saturationOf (mx dl : Int) : UnitVal := if mx = 0 then 0 else BitVec.ofInt 17 (dl * 65536 / mx)

/-- `x` of R202, the hue in sixths of a turn times `dl`; on a tie red wins over green and green over blue. -/
def sixthsOf (r g b mx dl : Int) : Int :=
  if mx = r then g - b else if mx = g then 2 * dl + (b - r) else 4 * dl + (r - g)

/-- `DH`: 0 when the hue is undefined (R201), else `Hue(R, G, B, mx, dl)` (R202). -/
def hueOf (r g b mx dl : Int) : Hue :=
  if dl = 0 then 0 else BitVec.ofInt 16 (sixthsOf r g b mx dl * 65536 / (6 * dl) % 65536)

/-- `RGB2HSV` (R199). -/
def execRgb2hsv (s : State) : Result :=
  let r : Int := s.regs.r.toNat
  let g : Int := s.regs.g.toNat
  let b : Int := s.regs.b.toNat
  let mx := maxOf r g b
  let dl := mx - minOf r g b
  .next (State.setDhv (decide (dl ≠ 0))
    { s with regs := { s.regs with dh := hueOf r g b mx dl, ds := saturationOf mx dl, dv := valueOf mx } })

end Sys2Proof.Machine
end

