-- ==== Sys2Proof/Machine/Framebuffer.lean ====
section
/-! DEFINITION. The frame-buffer commands (spec/40_framebuffer_ops.md). -/

namespace Sys2Proof.Machine

/-- `CLEAR`: every cell of the build receives 0, in one step (R121). -/
def execClear (s : State) : Result := .next { s with fb := s.fb.clearBelow (3 * s.build.nch) }

/-- `SETB ch, imm16`: the blue cell receives the clamped operand (R123). -/
def execSetb (ch : BitVec 8) (imm : BitVec 16) (s : State) : Result :=
  onChannel (.setb ch imm) ch (State.writeCell ch.toNat .blue (componentOperand imm)) s

/-- `SETR ch, imm16`: the red cell receives the clamped operand (R124). -/
def execSetr (ch : BitVec 8) (imm : BitVec 16) (s : State) : Result :=
  onChannel (.setr ch imm) ch (State.writeCell ch.toNat .red (componentOperand imm)) s

/-- `SETG ch, imm16`: the green cell receives the clamped operand (R125). -/
def execSetg (ch : BitVec 8) (imm : BitVec 16) (s : State) : Result :=
  onChannel (.setg ch imm) ch (State.writeCell ch.toNat .green (componentOperand imm)) s

/-- The three cells of channel `c` receive `B`, `R`, `G`, each the register of its own colour (R126). -/
def putChannel (c : Nat) (s : State) : State :=
  ((s.writeCell c .blue s.regs.b).writeCell c .red s.regs.r).writeCell c .green s.regs.g

/-- `PUTPX ch` (R126). -/
def execPutpx (ch : BitVec 8) (s : State) : Result := onChannel (.putpx ch) ch (putChannel ch.toNat) s

/-- `B`, `R`, `G` receive the three cells of channel `c` (R127). -/
def getChannel (c : Nat) (s : State) : State :=
  { s with regs := { s.regs with b := s.cell c .blue, r := s.cell c .red, g := s.cell c .green } }

/-- `GETPX ch` (R127). -/
def execGetpx (ch : BitVec 8) (s : State) : Result := onChannel (.getpx ch) ch (getChannel ch.toNat) s

end Sys2Proof.Machine
end

