-- ==== Sys2Proof/Machine/Loads.lean ====
section
/-! DEFINITION. The colour operand loads (spec/42_color_operands.md). Only the named register changes (R170). -/

namespace Sys2Proof.Machine

/-- `LDH imm24` (R173). -/
def execLdh (imm : BitVec 24) (s : State) : Result :=
  .next { s with regs := { s.regs with h := hueOperand imm } }

/-- `LDS imm24` (R174). -/
def execLds (imm : BitVec 24) (s : State) : Result :=
  .next { s with regs := { s.regs with s := unitOperand imm } }

/-- `LDV imm24` (R175). -/
def execLdv (imm : BitVec 24) (s : State) : Result :=
  .next { s with regs := { s.regs with v := unitOperand imm } }

/-- `LDHA imm24` (R176). -/
def execLdha (imm : BitVec 24) (s : State) : Result :=
  .next { s with regs := { s.regs with ha := hueOperand imm } }

/-- `LDHB imm24` (R177). -/
def execLdhb (imm : BitVec 24) (s : State) : Result :=
  .next { s with regs := { s.regs with hb := hueOperand imm } }

/-- `LDF imm24` (R178). -/
def execLdf (imm : BitVec 24) (s : State) : Result :=
  .next { s with regs := { s.regs with fr := unitOperand imm } }

end Sys2Proof.Machine
end

