-- ==== Sys2Proof/Machine/Output.lean ====
section
/-! DEFINITION. `XMIT`, the frame bit sequence and the serialiser's micro-steps (spec/41_output_protocol.md rules R141 to
R150). -/

namespace Sys2Proof.Machine

/-- The serialiser at the first position of a frame: channel `NCH-1`, blue, bit 11 (R141). -/
def firstPosition (nch : Nat) : Serialiser := { mode := .shift, ch := nch - 1, comp := .blue, bit := 11, ph := 0 }

/-- `XMIT`: start a transmission; no pin changes in this step (R141). -/
def execXmit (s : State) : Result := .next (State.setBusy true { s with ser := firstPosition s.build.nch })

/-- The bits of one cell, most significant first (R142). -/
def levelBits (v : Level) : List Bool := ((List.range 12).reverse).map fun b => v.getLsbD b

/-- The bits of one channel: blue, red, green (R142). -/
def channelBits (s : State) (c : Nat) : List Bool := Component.sendOrder.flatMap fun k => levelBits (s.cell c k)

/-- `FrameBits(FB)`: channels in descending index order (R142). -/
def frameBits (s : State) : List Bool := ((List.range s.build.nch).reverse).flatMap fun c => channelBits s c

/-- The bit at the serialiser's position, `FB[CH][COMP][BIT]` (R144). -/
def positionBit (s : State) : Bool := (s.cell s.ser.ch s.ser.comp).getLsbD s.ser.bit

/-- Micro-step `SHIFT`, `PH = 0`: data phase (R144). -/
def dataPhase (s : State) : State :=
  State.emit { s with pins := { s.pins with sdata := positionBit s }, ser := { s.ser with ph := 1 } }

/-- Micro-step `SHIFT`, `PH = 1`: clock rise (R145). -/
def clockRise (s : State) : State :=
  State.emit { s with pins := { s.pins with sclk := true }, ser := { s.ser with ph := 2 } }

/-- The position after a bit; after the last bit of the frame, the strobe (R146). -/
def advance (p : Serialiser) : Serialiser :=
  if 0 < p.bit then { p with bit := p.bit - 1, ph := 0 }
  else
    match p.comp with
    | .blue => { p with bit := 11, comp := .red, ph := 0 }
    | .red => { p with bit := 11, comp := .green, ph := 0 }
    | .green =>
      if 0 < p.ch then { p with bit := 11, comp := .blue, ch := p.ch - 1, ph := 0 }
      else { mode := .strobe, ch := 0, comp := .blue, bit := 0, ph := 0 }

/-- Micro-step `SHIFT`, `PH = 2`: clock fall and advance (R146). -/
def clockFall (s : State) : State :=
  State.emit { s with pins := { s.pins with sclk := false }, ser := advance s.ser }

/-- Micro-step `STROBE`, `PH = 0`: `LATCH` and `BLANK` rise together (R148). -/
def strobeAssert (s : State) : State :=
  State.emit { s with pins := { s.pins with latch := true, blank := true }, ser := { s.ser with ph := 1 } }

/-- Micro-step `STROBE`, `PH = 1`: both fall together, the transmission ends (R150). -/
def strobeRelease (s : State) : State :=
  State.emit (State.setBusy false
    { s with pins := { s.pins with latch := false, blank := false }, ser := { s.ser with mode := .idle, ph := 0 } })

/-- One micro-step of the serialiser (R143): the one rule its position enables. A position that enables none is
unreachable (R28) and faults; log 9. -/
def microStep (s : State) : Result :=
  match s.ser.mode, s.ser.ph with
  | .shift, 0 => .next (dataPhase s)
  | .shift, 1 => .next (clockRise s)
  | .shift, 2 => .next (clockFall s)
  | .strobe, 0 => .next (strobeAssert s)
  | .strobe, 1 => .next (strobeRelease s)
  | _, _ => .fault .noMicroStep

end Sys2Proof.Machine
end

