-- ==== Sys2Proof/Machine/System.lean ====
section
/-! DEFINITION. The system command `NOP` (spec/44_system.md rule R216). -/

namespace Sys2Proof.Machine

/-- `NOP`: no state change (R216). -/
def execNop (s : State) : Result := .next s

end Sys2Proof.Machine
end

