-- ==== Sys2Proof/Machine/Dispatch.lean ====
section
/-! DEFINITION. One arm per command: the meaning of an accepted command. -/

namespace Sys2Proof.Machine

def exec (i : Instr) (s : State) : Host.Outcome State Fault Refusal :=
  match i with
  | .nop => Sys2Proof.Machine.execNop s
  | .clear => Sys2Proof.Machine.execClear s
  | .xmit => Sys2Proof.Machine.execXmit s
  | .setb ch imm => Sys2Proof.Machine.execSetb ch imm s
  | .setr ch imm => Sys2Proof.Machine.execSetr ch imm s
  | .setg ch imm => Sys2Proof.Machine.execSetg ch imm s
  | .putpx ch => Sys2Proof.Machine.execPutpx ch s
  | .getpx ch => Sys2Proof.Machine.execGetpx ch s
  | .ldh imm => Sys2Proof.Machine.execLdh imm s
  | .lds imm => Sys2Proof.Machine.execLds imm s
  | .ldv imm => Sys2Proof.Machine.execLdv imm s
  | .ldha imm => Sys2Proof.Machine.execLdha imm s
  | .ldhb imm => Sys2Proof.Machine.execLdhb imm s
  | .ldf imm => Sys2Proof.Machine.execLdf imm s
  | .hsv2rgb => Sys2Proof.Machine.execHsv2rgb s
  | .hlerp => Sys2Proof.Machine.execHlerp s
  | .rgb2hsv => Sys2Proof.Machine.execRgb2hsv s

end Sys2Proof.Machine
end

