-- ==== Sys2Proof/Machine/Sequencer.lean ====
section
/-! DEFINITION. The sequencer: acceptance of one offered command word (spec/30_encoding.md rules R91, R100, R103). -/

namespace Sys2Proof.Machine

/-- Decode an accepted word and, in the same step, execute its command or raise the command error (R91). -/
def acceptWord (w : Word) (s : State) : Result :=
  match decode w with
  | .command i => exec i s
  | .rejected c => .next (raiseCmdError c w s)

/-- A sequencer step: accept the offered word; with none offered the host pauses and nothing changes (R9 (b), R262). -/
def sequencerStep (s : State) : Result :=
  match s.host.offered with
  | [] => .next s
  | w :: ws => acceptWord w (s.takeOffered ws)

/-- What the ports need so that the very next step accepts `w`: `w` offered first, `RESET` not asserted in that step, no
transmission running (log 2). -/
def State.offerNext (w : Word) (s : State) : State :=
  { s with ser := Serialiser.idle, stat := { s.stat with busy := false },
           host := { offered := w :: s.host.offered, resetPin := s.host.resetPin,
                     resetIn := if s.resetLevel then false :: s.host.resetIn else s.host.resetIn } }

end Sys2Proof.Machine
end

