-- ==== Sys2Proof/Machine/Step.lean ====
section
/-! DEFINITION. One step of the machine (spec/00_scope.md rule R9, spec/60_exceptions.md rule R235): reset wins over
everything, then the serialiser while `BUSY`, else the sequencer. -/

namespace Sys2Proof.Machine

/-- One step: `RESET` is sampled first (R235, R250); while `BUSY = 1` the serialiser takes one micro-step and an offered
word is held (R33, R143); otherwise the sequencer accepts the offered word (R91). -/
def step (s : State) : Host.Outcome State Fault Refusal :=
  if s.resetLevel then .next (resetStep s)
  else if s.stat.busy then microStep (s.sampleReset false)
  else sequencerStep (s.sampleReset false)

/-- `s` with the word whose bits are `w` offered as the next command, so that the very next step accepts it. A word is
never stored in the block (R27, R75); a number that is no 32-bit word leaves `s` as it is. -/
def State.withFetchWord (s : State) (nbits w : Nat) : State :=
  match tableWord nbits w with
  | some x => s.offerNext x
  | none => s

end Sys2Proof.Machine
end

