-- ==== Sys2Proof/Machine/Pseudo.lean ====
section
/-! DEFINITION. The assembler's literals, lines and pseudo-instructions (spec/30_encoding.md rules R104 to R107), a line
taken as its mnemonic and operands. -/

namespace Sys2Proof.Machine

/-- A literal of R105. -/
inductive Literal where
  /-- A decimal integer. -/
  | dec (n : Int)
  /-- A hexadecimal raw field. -/
  | hex (n : Nat)
  /-- `q(x)` with `x = mantissa / 10 ^ digits`, a decimal real number. -/
  | frac (mantissa : Int) (digits : Nat)
  deriving DecidableEq, Repr

/-- `q(x) = floor(x * 65536)` (R105). -/
def fracValue (mantissa : Int) (digits : Nat) : Int := mantissa * 65536 / ((10 ^ digits : Nat) : Int)

/-- A decimal value in the signed range of a field of `width` bits, as the field (R105). -/
def signedField (width : Nat) (n : Int) : Option (BitVec width) :=
  if -((2 ^ (width - 1) : Nat) : Int) ≤ n ∧ n < ((2 ^ (width - 1) : Nat) : Int) then some (BitVec.ofInt width n)
  else none

/-- A raw value that fits a field of `width` bits, as the field (R105). -/
def rawField (width : Nat) (n : Nat) : Option (BitVec width) :=
  if n < 2 ^ width then some (BitVec.ofNat width n) else none

/-- The immediate field of `width` bits a literal denotes (R105). `q(x)` stands for its integer as a decimal literal does, so
it is held to the signed range: DESIGN CHOICE, safe, log 14. -/
def Literal.immediate (width : Nat) : Literal → Option (BitVec width)
  | .dec n => signedField width n
  | .hex n => rawField width n
  | .frac m d => signedField width (fracValue m d)

/-- The channel field a literal denotes: 0 .. 255 (R105). `q(x)` is no channel: DESIGN CHOICE, safe, log 14. -/
def Literal.channel : Literal → Option (BitVec 8)
  | .dec n => if 0 ≤ n then rawField 8 n.toNat else none
  | .hex n => rawField 8 n
  | .frac _ _ => none

/-- The pseudo-instructions of R106, with their operands as fields. -/
inductive Pseudo where
  /-- `SETPX c, r, g, b`: operands in red, green, blue order. -/
  | setpx (c : BitVec 8) (r g b : BitVec 16)
  /-- `LDHSV h, s, v`. -/
  | ldhsv (h s v : BitVec 24)
  /-- `LDANCH a, b, f`. -/
  | ldanch (a b f : BitVec 24)
  /-- `PUTALL`. -/
  | putall
  /-- `BLANKOUT`. -/
  | blankout
  deriving DecidableEq, Repr

/-- The expansion of a pseudo-instruction in a build of `nch` channels (R106). -/
def Pseudo.expand (nch : Nat) : Pseudo → List Instr
  | .setpx c r g b => [.setb c b, .setr c r, .setg c g]
  | .ldhsv h s v => [.ldh h, .lds s, .ldv v]
  | .ldanch a b f => [.ldha a, .ldhb b, .ldf f]
  | .putall => (List.range nch).map fun c => .putpx (BitVec.ofNat 8 c)
  | .blankout => [.clear, .xmit]

/-- A line of format CI (R104). -/
def lineCI (f : BitVec 8 → BitVec 16 → Instr) (c v : Literal) : Option (List Instr) :=
  match c.channel, v.immediate 16 with
  | some ch, some imm => some [f ch imm]
  | _, _ => none

/-- A line of format C (R104). -/
def lineC (f : BitVec 8 → Instr) (c : Literal) : Option (List Instr) :=
  match c.channel with
  | some ch => some [f ch]
  | none => none

/-- A line of format I (R104). -/
def lineI (f : BitVec 24 → Instr) (v : Literal) : Option (List Instr) :=
  match v.immediate 24 with
  | some imm => some [f imm]
  | none => none

/-- A pseudo-instruction of three 24-bit immediates (R106). -/
def lineTriple (nch : Nat) (f : BitVec 24 → BitVec 24 → BitVec 24 → Pseudo) (x y z : Literal) : Option (List Instr) :=
  match x.immediate 24, y.immediate 24, z.immediate 24 with
  | some a, some b, some c => some ((f a b c).expand nch)
  | _, _, _ => none

/-- The pseudo-instruction `SETPX` (R106). -/
def lineSetpx (nch : Nat) (c r g b : Literal) : Option (List Instr) :=
  match c.channel, r.immediate 16, g.immediate 16, b.immediate 16 with
  | some ch, some x, some y, some z => some ((Pseudo.setpx ch x y z).expand nch)
  | _, _, _, _ => none

/-- One source line: a mnemonic and its operands in the form of its format (R104, R106). -/
def assembleLine (nch : Nat) (mnemonic : String) (operands : List Literal) : Option (List Instr) :=
  match mnemonic, operands with
  | "NOP", [] => some [.nop]
  | "CLEAR", [] => some [.clear]
  | "XMIT", [] => some [.xmit]
  | "SETB", [c, v] => lineCI .setb c v
  | "SETR", [c, v] => lineCI .setr c v
  | "SETG", [c, v] => lineCI .setg c v
  | "PUTPX", [c] => lineC .putpx c
  | "GETPX", [c] => lineC .getpx c
  | "LDH", [v] => lineI .ldh v
  | "LDS", [v] => lineI .lds v
  | "LDV", [v] => lineI .ldv v
  | "LDHA", [v] => lineI .ldha v
  | "LDHB", [v] => lineI .ldhb v
  | "LDF", [v] => lineI .ldf v
  | "HSV2RGB", [] => some [.hsv2rgb]
  | "HLERP", [] => some [.hlerp]
  | "RGB2HSV", [] => some [.rgb2hsv]
  | "SETPX", [c, r, g, b] => lineSetpx nch c r g b
  | "LDHSV", [h, s, v] => lineTriple nch .ldhsv h s v
  | "LDANCH", [a, b, f] => lineTriple nch .ldanch a b f
  | "PUTALL", [] => some (Pseudo.putall.expand nch)
  | "BLANKOUT", [] => some (Pseudo.blankout.expand nch)
  | _, _ => none

/-- A program: the command words of its lines, in order (R104, R107). -/
def assemble (nch : Nat) : List (String × List Literal) → Option (List Word)
  | [] => some []
  | (m, ops) :: rest =>
    match assembleLine nch m ops, assemble nch rest with
    | some is, some ws => some (is.map encode ++ ws)
    | _, _ => none

/-- The effects of commands executed one after another, each a step of its own (R106). -/
def execAll : List Instr → State → Result
  | [], s => .next s
  | i :: is, s =>
    match exec i s with
    | .next t => execAll is t
    | .fault f => .fault f
    | .refused r => .refused r

end Sys2Proof.Machine
end

