-- ==== Sys2Proof/Machine/Assembler.lean ====
section
/-! DEFINITION. The assembler's source text, one line a list of characters (spec/30_encoding.md rules R104, R105). What the
rules leave open about the text (blanks, empty lines, the case of hexadecimal digits) is log 12. -/

namespace Sys2Proof.Machine

/-- A blank, which may stand around every token. -/
def isBlank (c : Char) : Bool := c == ' ' || c == '\t'

/-- The text without blanks at its ends. -/
def trimBlanks (cs : List Char) : List Char := ((cs.dropWhile isBlank).reverse.dropWhile isBlank).reverse

/-- The text before the comment (R104). -/
def beforeComment (cs : List Char) : List Char := cs.takeWhile fun c => c != ';'

/-- The parts of an operand list, between its commas (R104). -/
def splitCommas : List Char → List (List Char)
  | [] => [[]]
  | c :: cs =>
    if c == ',' then [] :: splitCommas cs
    else
      match splitCommas cs with
      | [] => [[c]]
      | w :: ws => (c :: w) :: ws

/-- The value of a digit. -/
def digitValue (c : Char) : Option Nat :=
  if 48 ≤ c.toNat ∧ c.toNat ≤ 57 then some (c.toNat - 48)
  else if 65 ≤ c.toNat ∧ c.toNat ≤ 70 then some (c.toNat - 55)
  else if 97 ≤ c.toNat ∧ c.toNat ≤ 102 then some (c.toNat - 87)
  else none

/-- The number the digits `cs` add to `acc` in a base. -/
def digitsFrom (base : Nat) : Nat → List Char → Option Nat
  | acc, [] => some acc
  | acc, c :: cs =>
    match digitValue c with
    | some d => if d < base then digitsFrom base (acc * base + d) cs else none
    | none => none

/-- The number written by at least one digit. -/
def numeral (base : Nat) (cs : List Char) : Option Nat := if cs = [] then none else digitsFrom base 0 cs

/-- A decimal real number without its sign: digits, and after a point at least one more (R105). -/
def unsignedReal (cs : List Char) : Option (Nat × Nat) :=
  let whole := cs.takeWhile fun c => c != '.'
  match cs.dropWhile fun c => c != '.' with
  | [] => (numeral 10 whole).map fun n => (n, 0)
  | _ :: fraction =>
    if whole = [] ∨ fraction = [] then none
    else (numeral 10 (whole ++ fraction)).map fun n => (n, fraction.length)

/-- The literal `q(x)` from the text of `x` (R105). -/
def readFrac : List Char → Option Literal
  | '-' :: cs => (unsignedReal (trimBlanks cs)).map fun x => .frac (-(x.1 : Int)) x.2
  | cs => (unsignedReal cs).map fun x => .frac x.1 x.2

/-- A literal (R105). -/
def readLiteral : List Char → Option Literal
  | '0' :: 'x' :: cs => (numeral 16 cs).map .hex
  | '-' :: cs => (numeral 10 cs).map fun n => .dec (-(n : Int))
  | 'q' :: '(' :: cs =>
    match cs.reverse with
    | ')' :: inner => readFrac (trimBlanks inner.reverse)
    | _ => none
  | cs => (numeral 10 cs).map fun n => .dec n

/-- Every literal of an operand list, or none. -/
def readLiterals : List (List Char) → Option (List Literal)
  | [] => some []
  | cs :: rest =>
    match readLiteral (trimBlanks cs), readLiterals rest with
    | some l, some ls => some (l :: ls)
    | _, _ => none

/-- A line's mnemonic and operands (R104). -/
def readLine (cs : List Char) : Option (List Char × List Literal) :=
  let text := trimBlanks (beforeComment cs)
  let mnemonic := text.takeWhile fun c => !isBlank c
  let rest := trimBlanks (text.dropWhile fun c => !isBlank c)
  match (if rest = [] then some [] else readLiterals (splitCommas rest)) with
  | some ops => some (mnemonic, ops)
  | none => none

/-- The command words of a source text, line by line; a line with nothing on it has none (R104, R107). -/
def assembleText (nch : Nat) : List (List Char) → Option (List Word)
  | [] => some []
  | line :: rest =>
    match readLine line, assembleText nch rest with
    | some ([], []), some ws => some ws
    | some (m, ops), some ws => (assembleLine nch (String.ofList m) ops).map fun is => is.map encode ++ ws
    | _, _ => none

end Sys2Proof.Machine
end

