-- ==== Sys2Proof/Machine/ReadPort.lean ====
section
/-! DEFINITION. The read port (spec/20_memory.md rules R64 to R66): a pure function of the state, usable at any state
between two steps. -/

namespace Sys2Proof.Machine

/-- The frame-buffer window: `FB[c][k]` where the cell exists, else 0 (R65). -/
def readWindow (c k : Nat) (s : State) : Word :=
  match Component.ofIndex k with
  | some comp => if c < s.build.nch then (s.cell c comp).setWidth 32 else 0
  | none => 0

/-- `RD(a)` (R65). Every value is zero-extended to 32 bits; an unassigned address reads 0. -/
def readPort (a : BitVec 12) (s : State) : Word :=
  match a.toNat with
  | 0x000 => statusWord s
  | 0x001 => errcodeWord s
  | 0x002 => s.stat.errinfo
  | 0x003 => configWord s.build
  | 0x004 => bandLoWord s.build
  | 0x005 => bandHiWord s.build
  | 0x010 => s.regs.h.setWidth 32
  | 0x011 => s.regs.s.setWidth 32
  | 0x012 => s.regs.v.setWidth 32
  | 0x013 => s.regs.ha.setWidth 32
  | 0x014 => s.regs.hb.setWidth 32
  | 0x015 => s.regs.fr.setWidth 32
  | 0x018 => s.regs.r.setWidth 32
  | 0x019 => s.regs.g.setWidth 32
  | 0x01A => s.regs.b.setWidth 32
  | 0x01C => s.regs.dh.setWidth 32
  | 0x01D => s.regs.ds.setWidth 32
  | 0x01E => s.regs.dv.setWidth 32
  | n => if 0x400 ≤ n ∧ n < 0x800 then readWindow ((n - 0x400) / 4) ((n - 0x400) % 4) s else 0

end Sys2Proof.Machine
end

