-- ==== Sys2Proof/Machine/Timing.lean ====
section
/-! DEFINITION. The lower bounds on real time (spec/41_output_protocol.md rule R143, spec/70_reset_and_hazards.md rule
R263). TIMING ONLY: no rule of the functional model reads them, and no step does. -/

namespace Sys2Proof.Machine

/-- Whether the step to come is a micro-step whose pin levels no assertion of `RESET` cuts short: `BUSY = 1`, and `RESET` is
asserted neither in this step, which then takes no micro-step (R250), nor in the next, in which the pins drop at once
(R252). -/
def holdsItsLevels (s : State) : Bool := !s.resetLevel && s.stat.busy && !(s.sampleReset false).resetLevel

/-- The least time the pin levels set by the micro-step taken in this state are held: `T_PHASE` for a `SHIFT`
micro-step, `T_STROBE` for the asserted strobe, the two bounds of R263. That levels which `RESET` cuts short count for
nothing is log 7. The levels the release (R150) leaves count for nothing, also before a next frame, where R143 and R156
speak of `T_PHASE` and R263 of no bound: DESIGN CHOICE, safe, log 15. -/
def holdFloor (s : State) : Nat :=
  if holdsItsLevels s then
    match s.ser.mode, s.ser.ph with
    | .shift, _ => Config.tPhase
    | .strobe, 0 => Config.tStrobe
    | _, _ => 0
  else 0

/-- The least real time `k` steps take, as far as R263 bounds it (log 15). -/
def elapsedFloor : Nat → State → Nat
  | 0, _ => 0
  | k + 1, s =>
    match step s with
    | .next t => holdFloor s + elapsedFloor k t
    | .fault _ => 0
    | .refused _ => 0

end Sys2Proof.Machine
end

