-- ==== Sys2Proof/Safety.lean ====
section
/-! DEFINITION. What counts as a safe state and a safe run, in the terms the statements use. -/

namespace Sys2Proof.Machine

/-- The build meets R5, and `NCH` fits its range. -/
abbrev State.BuildOk (s : State) : Prop := s.build.Legal

/-- The frame buffer is canonical and lists only cells that exist (R20). -/
abbrev State.MemoryOk (s : State) : Prop := s.fb.wf = true ∧ s.fb.below (3 * s.build.nch) = true

/-- The UQ1.16c registers are in 0 .. 65536 (R23, R25). -/
abbrev State.RegsOk (s : State) : Prop :=
  s.regs.s.toNat ≤ 65536 ∧ s.regs.v.toNat ≤ 65536 ∧ s.regs.fr.toNat ≤ 65536 ∧ s.regs.ds.toNat ≤ 65536 ∧
    s.regs.dv.toNat ≤ 65536

/-- The legal serialiser positions of R28. -/
def Serialiser.legal (nch : Nat) (p : Serialiser) : Bool :=
  match p.mode with
  | .idle => decide (p = Serialiser.idle)
  | .shift => decide (p.ch < nch ∧ p.bit ≤ 11 ∧ p.ph ≤ 2)
  | .strobe => decide (p.ch = 0 ∧ p.comp = .blue ∧ p.bit = 0 ∧ p.ph ≤ 1)

/-- `BUSY = 1` if and only if `SER` is not `IDLE` (R33). -/
abbrev State.BusyOk (s : State) : Prop := (s.stat.busy = true ↔ s.ser.mode ≠ .idle)

/-- The pins are those of the serialiser's position (R144 to R150, R152 (f)). -/
abbrev State.PinsOk (s : State) : Prop :=
  (s.pins.sclk = true ↔ s.ser.mode = .shift ∧ s.ser.ph = 2) ∧
  (s.pins.latch = true ↔ s.ser.mode = .strobe ∧ s.ser.ph = 1) ∧
  s.pins.blank = s.pins.latch ∧
  (s.ser.mode = .shift → 1 ≤ s.ser.ph → s.pins.sdata = positionBit s) ∧
  (s.ser.mode = .strobe → s.pins.sdata = (s.cell 0 .green).getLsbD 0)

/-- A pin tuple the link can show: `LATCH = BLANK`, and no clock while the latch is up (R152 (a), (b)). -/
abbrev Pins.Ok (p : Pins) : Prop := p.latch = p.blank ∧ (p.latch = true → p.sclk = false)

/-- The history ends in the present pins and holds only tuples the link can show (R40, R152). -/
abbrev State.TraceOk (s : State) : Prop := s.trace.getLast? = some s.pins ∧ ∀ p ∈ s.trace, p.Ok

/-- The error record is 0 until an error, and holds a cause after it (R36, R37, R226). -/
abbrev State.ErrOk (s : State) : Prop :=
  (s.stat.err = false → s.stat.errcode = 0 ∧ s.stat.errinfo = 0) ∧ (s.stat.err = true → s.stat.errcode ≠ 0)

/-- The chain's registers have `NBITS` bits, and `OE` is the complement of `BLANK` (R41, R161). -/
abbrev State.ChainOk (s : State) : Prop :=
  s.chain.sr < 2 ^ s.build.nbits ∧ (∀ x ∈ s.chain.vis, x < 2 ^ s.build.nbits) ∧ s.chain.oe = !s.pins.blank

/-- While `RESET` is asserted the block is held in its reset state (R250). -/
abbrev State.HeldOk (s : State) : Prop := s.host.resetPin = true → blockReset s = s

/-- The invariant of the machine. -/
structure State.Inv (s : State) : Prop where
  build : s.BuildOk
  memory : s.MemoryOk
  regs : s.RegsOk
  ser : s.ser.legal s.build.nch = true
  busy : s.BusyOk
  pins : s.PinsOk
  trace : s.TraceOk
  err : s.ErrOk
  chain : s.ChainOk
  held : s.HeldOk

/-- The chain observer is where reading the whole history takes it, from some unknown shift register, no frame and the
output enabled (R41, R158). -/
def State.Observed (s : State) : Prop :=
  ∃ sr : Nat, s.chain = Chain.observeAll s.build.nbits Pins.low s.trace { sr := sr, vis := none, oe := true }

/-- `k` steps, stopping at the first fault or refusal. -/
def run : Nat → State → Result
  | 0, s => .next s
  | k + 1, s =>
    match step s with
    | .next t => run k t
    | .fault f => .fault f
    | .refused r => .refused r

/-- The host never asserts `RESET` in the steps to come. -/
abbrev State.Quiet (s : State) : Prop := ∀ b ∈ s.host.resetIn, b = false

/-- A run is over: every word has been accepted and `BUSY = 0` (R11). -/
abbrev State.RunOver (s : State) : Prop := s.host.offered = [] ∧ s.stat.busy = false

/-- A safe run: none of its steps stops the machine, and no command was discarded (R233). -/
def SafeRun (k : Nat) (s : State) : Prop := ∃ t, run k s = .next t ∧ t.stat.err = false

end Sys2Proof.Machine
end

