-- ==== Sys2Proof/Certificates/Slice0/Obligations.lean ====
section
/-! DEFINITION. The statements for the provers, from the numbered rules of spec/, and the terms they use. Where a rule is
marked "[derived: …]" by the spec, or a clause rests on an entry of the model's own log, the statement says so. -/

namespace Sys2Proof.Claims

open Sys2Proof.Machine

/-- `w[31:24]` as a number (R93). -/
def opN (w : Word) : Nat := w.toNat / 16777216

/-- `w[23:16]` as a number (R94). -/
def chN (w : Word) : Nat := w.toNat / 65536 % 256

/-- `w[23:0]` as a number. -/
def low24 (w : Word) : Nat := w.toNat % 16777216

/-- `w[15:0]` as a number. -/
def low16 (w : Word) : Nat := w.toNat % 65536

/-- The opcodes of format Z (R98). -/
def opsZ : List Nat := [0x00, 0x01, 0x02, 0x30, 0x31, 0x32]

/-- The opcodes of format C (R98). -/
def opsC : List Nat := [0x14, 0x15]

/-- The opcodes of format CI (R98). -/
def opsCI : List Nat := [0x10, 0x11, 0x12]

/-- The opcodes of format I (R98). -/
def opsI : List Nat := [0x20, 0x21, 0x22, 0x23, 0x24, 0x25]

/-- The seventeen opcodes (R230). -/
def ops : List Nat := opsZ ++ opsC ++ opsCI ++ opsI

/-- A must-be-zero field of `w` is not zero (R228). -/
abbrev ReservedBad (w : Word) : Prop := (opN w ∈ opsZ ∧ low24 w ≠ 0) ∨ (opN w ∈ opsC ∧ low16 w ≠ 0)

/-- What `raise CmdError(code, w)` leaves, as R229 writes it. -/
def recorded (code : BitVec 2) (w : Word) (s : State) : State :=
  match s.stat.err with
  | true => s
  | false => { s with stat := { s.stat with err := true, errcode := code, errinfo := w } }

/-- The sequencer is ready and `w` is offered, `ws` after it: `RESET` is not asserted in this step and `BUSY = 0`
(R91). -/
abbrev Offers (s : State) (w : Word) (ws : List Word) : Prop :=
  s.resetLevel = false ∧ s.stat.busy = false ∧ s.host.offered = w :: ws

/-- `s` once the step has sampled `RESET` released. -/
def released (s : State) : State :=
  { s with host := { s.host with resetPin := false, resetIn := s.host.resetIn.tail } }

/-- `s` once the step has sampled `RESET` released and taken the offered word: what an accepted command runs in. -/
def taken (s : State) (ws : List Word) : State :=
  { s with host := { offered := ws, resetPin := false, resetIn := s.host.resetIn.tail } }

/-- A format Z word of opcode `op` with a nonzero must-be-zero field is only recorded, cause 3 (R228). -/
def RejectsZ (op : Nat) (s : State) : Prop :=
  ∀ w : Word, opN w = op → low24 w ≠ 0 → acceptWord w s = .next (recorded 3 w s)

/-- A format C word of opcode `op` is only recorded when its must-be-zero field is not zero (cause 3), else when its
channel does not exist (cause 2) (R227, R228, R234). -/
def RejectsC (op : Nat) (s : State) : Prop :=
  ∀ w : Word, opN w = op →
    (low16 w ≠ 0 → acceptWord w s = .next (recorded 3 w s)) ∧
    (low16 w = 0 → s.build.nch ≤ chN w → acceptWord w s = .next (recorded 2 w s))

/-- A format CI word of opcode `op` is only recorded when its channel does not exist, cause 2 (R227). -/
def RejectsCI (op : Nat) (s : State) : Prop :=
  ∀ w : Word, opN w = op → s.build.nch ≤ chN w → acceptWord w s = .next (recorded 2 w s)

/-- One row of the opcode map. -/
structure Row where
  name : String
  mask : Word
  value : Word
  deriving DecidableEq, Repr

/-- The opcode map, mnemonic, mask and match, as R98 prints it. -/
def opcodeMap : List Row :=
  [⟨"NOP", 0xFFFFFFFF, 0x00000000⟩, ⟨"CLEAR", 0xFFFFFFFF, 0x01000000⟩, ⟨"XMIT", 0xFFFFFFFF, 0x02000000⟩,
   ⟨"SETB", 0xFF000000, 0x10000000⟩, ⟨"SETR", 0xFF000000, 0x11000000⟩, ⟨"SETG", 0xFF000000, 0x12000000⟩,
   ⟨"PUTPX", 0xFF00FFFF, 0x14000000⟩, ⟨"GETPX", 0xFF00FFFF, 0x15000000⟩, ⟨"LDH", 0xFF000000, 0x20000000⟩,
   ⟨"LDS", 0xFF000000, 0x21000000⟩, ⟨"LDV", 0xFF000000, 0x22000000⟩, ⟨"LDHA", 0xFF000000, 0x23000000⟩,
   ⟨"LDHB", 0xFF000000, 0x24000000⟩, ⟨"LDF", 0xFF000000, 0x25000000⟩, ⟨"HSV2RGB", 0xFFFFFFFF, 0x30000000⟩,
   ⟨"HLERP", 0xFFFFFFFF, 0x31000000⟩, ⟨"RGB2HSV", 0xFFFFFFFF, 0x32000000⟩]

/-- The mnemonic of a command (R98). -/
def nameOf : Instr → String
  | .nop => "NOP"
  | .clear => "CLEAR"
  | .xmit => "XMIT"
  | .setb _ _ => "SETB"
  | .setr _ _ => "SETR"
  | .setg _ _ => "SETG"
  | .putpx _ => "PUTPX"
  | .getpx _ => "GETPX"
  | .ldh _ => "LDH"
  | .lds _ => "LDS"
  | .ldv _ => "LDV"
  | .ldha _ => "LDHA"
  | .ldhb _ => "LDHB"
  | .ldf _ => "LDF"
  | .hsv2rgb => "HSV2RGB"
  | .hlerp => "HLERP"
  | .rgb2hsv => "RGB2HSV"

/-- The 16-bit immediate of a command of format CI (R95). -/
def imm16In : Instr → Option (BitVec 16)
  | .setb _ imm => some imm
  | .setr _ imm => some imm
  | .setg _ imm => some imm
  | _ => none

/-- The 24-bit immediate of a command of format I (R96). -/
def imm24In : Instr → Option (BitVec 24)
  | .ldh imm => some imm
  | .lds imm => some imm
  | .ldv imm => some imm
  | .ldha imm => some imm
  | .ldhb imm => some imm
  | .ldf imm => some imm
  | _ => none

/-- The value a component immediate stores, from its raw field (R122). -/
def storedValue (imm : BitVec 16) : Nat :=
  if imm.toNat ≤ 0x0FFF then imm.toNat else if imm.toNat ≤ 0x7FFF then 4095 else 0

/-- The value a unit immediate loads, from its raw field (R172). -/
def clippedValue (imm : BitVec 24) : Nat :=
  if imm.toNat ≤ 0x010000 then imm.toNat else if imm.toNat ≤ 0x7FFFFF then 65536 else 0

/-- The command `mk` of opcode `op` stores its clamped operand in component `k` of its channel, and nothing else
(R122 to R125). -/
def StoresComponent (mk : BitVec 8 → BitVec 16 → Instr) (op : Nat) (k : Component) : Prop :=
  ∀ (c : BitVec 8) (imm : BitVec 16) (s : State), s.fb.wf = true →
    (encode (mk c imm)).toNat = op * 16777216 + c.toNat * 65536 + imm.toNat ∧ RejectsCI op s ∧
    (c.toNat < s.build.nch → ∃ t, exec (mk c imm) s = .next t ∧ t = { s with fb := t.fb } ∧
      (t.cell c.toNat k).toNat = storedValue imm ∧
      ((t.cell c.toNat k).toNat : ℤ) = max 0 (min 4095 imm.toInt) ∧
      ∀ a, a ≠ cellAddr c.toNat k → t.fb.read a = s.fb.read a)

/-- The six-sector conversion on real (here rational) hue, saturation and value, as red, green, blue in [0, 1]
(R187 to R189; the formulas and the table are G1 and G2 of spec/93_implementation_defined.md). -/
def sixSector (h s v : ℚ) : ℚ × ℚ × ℚ :=
  let i := ⌊h * 6⌋ % 6
  let f := h * 6 - ⌊h * 6⌋
  let p := v * (1 - s)
  let q := v * (1 - f * s)
  let t := v * (1 - (1 - f) * s)
  if i = 0 then (v, t, p) else if i = 1 then (q, v, p) else if i = 2 then (p, v, t)
  else if i = 3 then (p, q, v) else if i = 4 then (t, p, v) else (v, p, q)

/-- The real number a fixed-point register stands for (R8). -/
def realOf (x : Nat) : ℚ := (x : ℚ) / 65536

/-- `Cross(HA, HB)` (R194). -/
abbrev Crossing (s : State) : Prop :=
  s.build.bandEn = true ∧ min s.regs.ha.toNat s.regs.hb.toNat ≤ s.build.bandLo.toNat ∧
    s.build.bandHi.toNat ≤ max s.regs.ha.toNat s.regs.hb.toNat

/-- `d` is `Delta(HA, HB, Cross(HA, HB))` (R195). -/
def IsDelta (s : State) (d : ℤ) : Prop :=
  let d0 : ℤ := (s.regs.hb.toNat : ℤ) - s.regs.ha.toNat
  (¬Crossing s → d = d0) ∧
  (Crossing s → s.regs.ha.toNat < s.regs.hb.toNat → d = d0 - 65536) ∧
  (Crossing s → s.regs.hb.toNat < s.regs.ha.toNat → d = d0 + 65536)

/-- The position after a bit of the frame (R146). -/
def nextPosition (p : Serialiser) : Serialiser :=
  if p.bit > 0 then { p with bit := p.bit - 1, ph := 0 }
  else if p.comp = .blue then { p with bit := 11, comp := .red, ph := 0 }
  else if p.comp = .red then { p with bit := 11, comp := .green, ph := 0 }
  else if p.ch > 0 then { p with bit := 11, comp := .blue, ch := p.ch - 1, ph := 0 }
  else { mode := .strobe, ch := 0, comp := .blue, bit := 0, ph := 0 }

/-- The step of `s` answers `base s` with these pins and this position, the pins appended to `TRACE`; besides them only
the chain outside the block moves. -/
def MicroStepsTo (s : State) (pins : Pins) (ser : Serialiser) (busy : Bool) : Prop :=
  ∃ t, step s = .next t ∧
    t = { released s with pins := pins, ser := ser, stat := { s.stat with busy := busy },
                          trace := s.trace ++ [pins], chain := t.chain }

/-- A transmission starts in the next step: the invariant holds, the host leaves `RESET` alone, and `XMIT` is offered. -/
def StartsFrame (s : State) (ws : List Word) : Prop := s.Inv ∧ s.Quiet ∧ Offers s 0x02000000 ws

/-- The commands that write the frame buffer (R22). -/
def writesFb : Instr → Bool
  | .clear => true
  | .setb _ _ => true
  | .setr _ _ => true
  | .setg _ _ => true
  | .putpx _ => true
  | _ => false

/-- The commands that can raise an error once decoded: those with a channel (R226). -/
def hasChannel (i : Instr) : Bool := i.channel.isSome

end Sys2Proof.Claims

open Sys2Proof Sys2Proof.Machine Sys2Proof.Claims

/-! ### Encoding -/

/-- Decoding the word of any command gives the command back, every operand at every value; in a build where it is well
formed the full classification R100 accepts it. -/
def Obligations.EncodedCommandDecodesToItself : Prop :=
  ∀ i : Instr, decode (encode i) = .command i ∧ ∀ nch, i.wf nch = true → classify nch (encode i) = .command i

/-- No two words are one command: a word that decodes is the encoding of what it decodes to (R90, R98). -/
def Obligations.DecodedWordIsTheEncoding : Prop :=
  ∀ (w : Word) (i : Instr), decode w = .command i → encode i = w

/-- R98: a word selects a row of the opcode map exactly when `w & mask == match`. -/
def Obligations.OpcodeMapSelectsByMaskAndMatch : Prop :=
  ∀ row ∈ opcodeMap, ∀ w : Word, (∃ i, decode w = .command i ∧ nameOf i = row.name) ↔ w &&& row.mask = row.value

/-- R92 to R96: the channel is read from bits 23:16, `imm16` from bits 15:0, `imm24` from bits 23:0. -/
def Obligations.OperandFieldsAreReadAtTheirBits : Prop :=
  ∀ (w : Word) (i : Instr), decode w = .command i →
    (∀ c ∈ i.channel, c.toNat = chN w) ∧ (∀ x ∈ imm16In i, x.toNat = low16 w) ∧ (∀ x ∈ imm24In i, x.toNat = low24 w)

/-- Words of the spec's own examples decode to the commands they stand for. -/
def Obligations.ExampleWordsDecode : Prop :=
  decode 0x00000000 = .command .nop ∧ decode 0x10030FFF = .command (.setb 3 0x0FFF) ∧
  decode 0x1103FFFB = .command (.setr 3 0xFFFB) ∧ decode 0x14020000 = .command (.putpx 2) ∧
  decode 0x20FFFFFF = .command (.ldh 0xFFFFFF) ∧ decode 0x25008000 = .command (.ldf 0x008000) ∧
  decode 0x31000000 = .command .hlerp ∧ decode 0x14080001 = .rejected .reservedField ∧
  decode 0x03000000 = .rejected .illegalOpcode

/-! ### Acceptance, errors, reset -/

/-- R100 with R103, R227, R228, R229, R230, R234: every offered word has exactly the outcome of its class, in the order
illegal opcode, reserved field, bad channel; a word that is none of these is a well-formed command, which executes and
leaves the error record alone. -/
def Obligations.EveryOfferedWordHasItsOutcome : Prop :=
  ∀ (s : State) (w : Word) (ws : List Word), Offers s w ws →
    (opN w ∉ ops → step s = .next (recorded 1 w (taken s ws))) ∧
    (ReservedBad w → step s = .next (recorded 3 w (taken s ws))) ∧
    (¬ReservedBad w → opN w ∈ opsC ++ opsCI → s.build.nch ≤ chN w →
      step s = .next (recorded 2 w (taken s ws))) ∧
    (opN w ∈ ops → ¬ReservedBad w → (opN w ∈ opsC ++ opsCI → chN w < s.build.nch) →
      ∃ i t, encode i = w ∧ i.wf s.build.nch = true ∧ step s = .next t ∧ exec i (taken s ws) = .next t ∧
        t.stat.err = s.stat.err ∧ t.stat.errcode = s.stat.errcode ∧ t.stat.errinfo = s.stat.errinfo)

/-- R233: `ERR`, `ERRCODE`, `ERRINFO` return to 0 only at reset: once an error is recorded no step without reset changes
the record, and a step with reset clears it. -/
def Obligations.ErrorRecordIsStickyUntilReset : Prop :=
  ∀ s t : State, step s = .next t →
    (s.resetLevel = false → s.stat.err = true →
      t.stat.err = true ∧ t.stat.errcode = s.stat.errcode ∧ t.stat.errinfo = s.stat.errinfo) ∧
    (s.resetLevel = true → t.stat.err = false ∧ t.stat.errcode = 0 ∧ t.stat.errinfo = 0)

/-- R227 for the commands themselves: on a channel that does not exist each of the five raises `BAD_CHANNEL` with its own
word and does nothing else (where the meaning traps, not where it completes). -/
def Obligations.CommandOnMissingChannelOnlyRecords : Prop :=
  ∀ (i : Instr) (c : BitVec 8) (s : State), i.channel = some c → s.build.nch ≤ c.toNat →
    exec i s = .next (recorded 2 (encode i) s)

/-- R91: a step with a decodable word offered is the execution of the decoded command, in the state with the word taken
from the port. -/
def Obligations.StepRunsTheDecodedCommand : Prop :=
  ∀ (s : State) (w : Word) (ws : List Word) (i : Instr), Offers s w ws → decode w = .command i →
    step s = exec i (taken s ws)

/-- R91, R22, R33, R258: while `BUSY = 1` the offered words stay offered, no cell, no colour register and no flag but
`BUSY` changes. -/
def Obligations.BusyHoldsOfferedWordsAndTheFrame : Prop :=
  ∀ s t : State, s.resetLevel = false → s.stat.busy = true → step s = .next t →
    t.host.offered = s.host.offered ∧ t.fb = s.fb ∧ t.regs = s.regs ∧ t.stat = { s.stat with busy := t.stat.busy }

/-- R262: with nothing offered and nothing running, a step changes nothing of the block, the link or the chain. -/
def Obligations.HostPauseChangesNothing : Prop :=
  ∀ s : State, s.resetLevel = false → s.stat.busy = false → s.host.offered = [] → step s = .next (released s)

/-- R252, with the values of R43: an assertion of `RESET` takes effect in one step, whatever the block was doing; `TRACE`
gains the entry (0,0,0,0), which neither shifts nor latches the chain. -/
def Obligations.ResetAssertionTakesResetValues : Prop :=
  ∀ s : State, s.resetLevel = true → s.host.resetPin = false →
    ∃ t, step s = .next t ∧ (∀ c k, t.cell c k = 0) ∧
      t.regs = { h := 0, s := 0, v := 0, ha := 0, hb := 0, fr := 0, r := 0, g := 0, b := 0, dh := 0, ds := 0, dv := 0 } ∧
      t.stat = { busy := false, err := false, wrap := false, dhv := false, errcode := 0, errinfo := 0 } ∧
      t.ser = { mode := .idle, ch := 0, comp := .blue, bit := 0, ph := 0 } ∧
      t.pins = { sdata := false, sclk := false, latch := false, blank := false } ∧
      t.trace = s.trace ++ [{ sdata := false, sclk := false, latch := false, blank := false }] ∧
      t.chain.sr = s.chain.sr ∧ t.chain.vis = s.chain.vis ∧ t.build = s.build

/-- R250: while `RESET` stays asserted the block is held in its reset state. That a held reset adds no further entry to
`TRACE` is the model's choice, log 4. -/
def Obligations.HeldResetChangesNothing : Prop :=
  ∀ s : State, s.resetLevel = true → s.host.resetPin = true → s.HeldOk →
    step s = .next { s with host := { s.host with resetIn := s.host.resetIn.tail } }

/-- R43 and R41: what the read port shows right after reset, and the pins, the trace and the chain. (The value 0 of the
chain's `SR` is the model's choice, log 5, and is not stated.) -/
def Obligations.ResetLeavesTheResetTable : Prop :=
  (∀ a : BitVec 12, readPort a State.reset =
    if a = 0x003 then 0x00010008 else if a = 0x004 then 0x00002A7E else if a = 0x005 then 0x00008000 else 0) ∧
  State.reset.ser.mode = .idle ∧ State.reset.pins = ⟨false, false, false, false⟩ ∧
  State.reset.trace = [⟨false, false, false, false⟩] ∧ State.reset.chain.vis = none ∧ State.reset.chain.oe = true

/-! ### Frame-buffer commands -/

/-- R121: `CLEAR` sets every cell of the build to 0 and changes nothing else; on a zero buffer it changes nothing. -/
def Obligations.ClearZeroesEveryCell : Prop :=
  ∀ s : State, encode .clear = 0x01000000 ∧ RejectsZ 0x01 s ∧
    ∃ t, exec .clear s = .next t ∧ t = { s with fb := t.fb } ∧
      (∀ c k, c < s.build.nch → t.cell c k = 0) ∧
      (∀ a, 3 * s.build.nch ≤ a → t.fb.read a = s.fb.read a) ∧
      (s.fb.wf = true → (∀ c k, c < s.build.nch → s.cell c k = 0) → t = s)

/-- R122 to R125: `SETB`, `SETR`, `SETG` store the clamped operand in their one cell and change nothing else; on a missing
channel they store nothing. -/
def Obligations.SetStoresTheClampedComponent : Prop :=
  StoresComponent .setb 0x10 .blue ∧ StoresComponent .setr 0x11 .red ∧ StoresComponent .setg 0x12 .green

/-- R126: `PUTPX` writes each result register to the cell of its own colour, and nothing else. -/
def Obligations.PutpxWritesEachColourToItsCell : Prop :=
  ∀ (c : BitVec 8) (s : State), s.fb.wf = true →
    (encode (.putpx c)).toNat = 0x14 * 16777216 + c.toNat * 65536 ∧ RejectsC 0x14 s ∧
    (c.toNat < s.build.nch → ∃ t, exec (.putpx c) s = .next t ∧ t = { s with fb := t.fb } ∧
      t.cell c.toNat .blue = s.regs.b ∧ t.cell c.toNat .red = s.regs.r ∧ t.cell c.toNat .green = s.regs.g ∧
      ∀ a, (∀ k, a ≠ cellAddr c.toNat k) → t.fb.read a = s.fb.read a)

/-- R127: `GETPX` reads the three cells of its channel into the result registers, and changes nothing else. -/
def Obligations.GetpxReadsEachColourFromItsCell : Prop :=
  ∀ (c : BitVec 8) (s : State),
    (encode (.getpx c)).toNat = 0x15 * 16777216 + c.toNat * 65536 ∧ RejectsC 0x15 s ∧
    (c.toNat < s.build.nch → exec (.getpx c) s =
      .next { s with regs := { s.regs with b := s.cell c.toNat .blue, r := s.cell c.toNat .red,
                                           g := s.cell c.toNat .green } })

/-- R127's corner case and section 2.2 of the vectors: `GETPX c` then `PUTPX d` copies channel `c` to channel `d` and
touches no other channel; `PUTPX c` then `GETPX c` leaves the result registers as they were. -/
def Obligations.GetThenPutCopiesAChannel : Prop :=
  ∀ (c d : BitVec 8) (s : State), s.fb.wf = true → c.toNat < s.build.nch → d.toNat < s.build.nch →
    (∃ t u, exec (.getpx c) s = .next t ∧ exec (.putpx d) t = .next u ∧
      (∀ k, u.cell d.toNat k = s.cell c.toNat k) ∧ ∀ e k, e ≠ d.toNat → u.cell e k = s.cell e k) ∧
    (∃ t u, exec (.putpx c) s = .next t ∧ exec (.getpx c) t = .next u ∧ u.regs = s.regs)

/-- R106 with R126: `PUTALL` writes the result registers to every channel and changes nothing but the buffer. -/
def Obligations.PutallWritesEveryChannel : Prop :=
  ∀ s : State, s.build.Legal → s.fb.wf = true →
    ∃ t, execAll (Pseudo.putall.expand s.build.nch) s = .next t ∧ t = { s with fb := t.fb } ∧
      ∀ c, c < s.build.nch → t.cell c .blue = s.regs.b ∧ t.cell c .red = s.regs.r ∧ t.cell c .green = s.regs.g

/-! ### Operand loads -/

/-- R171, R173, R176, R177: a hue load leaves the immediate modulo 65536, which is `w[15:0]`, in its register and changes
nothing else. -/
def Obligations.HueLoadsWrapAroundTheCircle : Prop :=
  ∀ (imm : BitVec 24) (s : State),
    ((imm.setWidth 16).toNat : ℤ) = imm.toInt % 65536 ∧
    (encode (.ldh imm)).toNat = 0x20 * 16777216 + imm.toNat ∧
    (encode (.ldha imm)).toNat = 0x23 * 16777216 + imm.toNat ∧
    (encode (.ldhb imm)).toNat = 0x24 * 16777216 + imm.toNat ∧
    exec (.ldh imm) s = .next { s with regs := { s.regs with h := imm.setWidth 16 } } ∧
    exec (.ldha imm) s = .next { s with regs := { s.regs with ha := imm.setWidth 16 } } ∧
    exec (.ldhb imm) s = .next { s with regs := { s.regs with hb := imm.setWidth 16 } }

/-- R172, R174, R175, and likewise `LDF` (R178): `LDS`, `LDV`, `LDF` leave the immediate clipped to 0 .. 65536 in their register and change
nothing else. -/
def Obligations.UnitLoadsClipToUnitInterval : Prop :=
  ∀ (imm : BitVec 24) (s : State), ∃ v : UnitVal,
    v.toNat = clippedValue imm ∧ (v.toNat : ℤ) = max 0 (min 65536 imm.toInt) ∧
    (encode (.lds imm)).toNat = 0x21 * 16777216 + imm.toNat ∧
    (encode (.ldv imm)).toNat = 0x22 * 16777216 + imm.toNat ∧
    (encode (.ldf imm)).toNat = 0x25 * 16777216 + imm.toNat ∧
    exec (.lds imm) s = .next { s with regs := { s.regs with s := v } } ∧
    exec (.ldv imm) s = .next { s with regs := { s.regs with v := v } } ∧
    exec (.ldf imm) s = .next { s with regs := { s.regs with fr := v } }

/-! ### Colour computations -/

/-- R191 (the spec marks it derived, from R188): each of `R`, `G`, `B` is `floor(4095 * x)`, `x` the exact value of the
six-sector conversion of the operands; nothing else changes. -/
def Obligations.Hsv2rgbIsTheFloorOfTheExactConversion : Prop :=
  ∀ s : State, s.regs.s.toNat ≤ 65536 → s.regs.v.toNat ≤ 65536 →
    ∃ t, exec .hsv2rgb s = .next t ∧
      t = { s with regs := { s.regs with r := t.regs.r, g := t.regs.g, b := t.regs.b } } ∧
      (t.regs.r.toNat : ℤ) =
        ⌊4095 * (sixSector (realOf s.regs.h.toNat) (realOf s.regs.s.toNat) (realOf s.regs.v.toNat)).1⌋ ∧
      (t.regs.g.toNat : ℤ) =
        ⌊4095 * (sixSector (realOf s.regs.h.toNat) (realOf s.regs.s.toNat) (realOf s.regs.v.toNat)).2.1⌋ ∧
      (t.regs.b.toNat : ℤ) =
        ⌊4095 * (sixSector (realOf s.regs.h.toNat) (realOf s.regs.s.toNat) (realOf s.regs.v.toNat)).2.2⌋

/-- R188: the four terms are in 0 .. 4095 with `pp <= qq <= vv` and `pp <= tt <= vv`, and `vv` is `scale(2^32)`. -/
def Obligations.HsvTermsAreOrderedAndInRange : Prop :=
  ∀ s v f : ℤ, 0 ≤ s → s ≤ 65536 → 0 ≤ v → v ≤ 65536 → 0 ≤ f → f < 65536 →
    let t := termsOf s v f
    0 ≤ t.pp ∧ t.pp ≤ t.qq ∧ t.qq ≤ t.vv ∧ t.pp ≤ t.tt ∧ t.tt ≤ t.vv ∧ t.vv ≤ 4095 ∧ t.vv = scale v (2 ^ 32)

/-- R190 (a), (b), (f) (the spec marks it derived): zero saturation gives grey at `floor(V * 4095 / 65536)`, zero value
gives black, and no component exceeds that bound. -/
def Obligations.Hsv2rgbGreyBlackAndBrightnessBound : Prop :=
  ∀ s : State, s.regs.s.toNat ≤ 65536 → s.regs.v.toNat ≤ 65536 →
    ∃ t, exec .hsv2rgb s = .next t ∧
      (s.regs.s = 0 → t.regs.r.toNat = s.regs.v.toNat * 4095 / 65536 ∧ t.regs.g = t.regs.r ∧ t.regs.b = t.regs.r) ∧
      (s.regs.v = 0 → t.regs.r = 0 ∧ t.regs.g = 0 ∧ t.regs.b = 0) ∧
      t.regs.r.toNat ≤ s.regs.v.toNat * 4095 / 65536 ∧ t.regs.g.toNat ≤ s.regs.v.toNat * 4095 / 65536 ∧
      t.regs.b.toNat ≤ s.regs.v.toNat * 4095 / 65536

/-- R193 to R196: `HLERP` leaves `(HA + floor(d * FR / 65536)) mod 65536` in `H` and `Cross(HA, HB)` in `WRAP`, `d` the
signed distance of the path taken, and changes nothing else. -/
def Obligations.HlerpInterpolatesAlongTheChosenPath : Prop :=
  ∀ s : State, s.build.Legal →
    encode .hlerp = 0x31000000 ∧ RejectsZ 0x31 s ∧ (Crossing s → s.regs.ha ≠ s.regs.hb) ∧
    ∃ t d, exec .hlerp s = .next t ∧ IsDelta s d ∧
      (Crossing s → |d| = 65536 - |(s.regs.hb.toNat : ℤ) - s.regs.ha.toNat| ∧
        |d| ≤ 65536 - ((s.build.bandHi.toNat : ℤ) - s.build.bandLo.toNat)) ∧
      t = { s with regs := { s.regs with h := t.regs.h }, stat := { s.stat with wrap := t.stat.wrap } } ∧
      (t.regs.h.toNat : ℤ) = (s.regs.ha.toNat + ⌊(d : ℚ) * s.regs.fr.toNat / 65536⌋) % 65536 ∧
      (t.stat.wrap = true ↔ Crossing s)

/-- R197 (a), (f) (the spec marks it derived): progress 0 gives `HA`, progress 65536 gives `HB`, and equal anchors give
`HA` at every progress, on the direct and on the wrap path. -/
def Obligations.HlerpReachesItsAnchors : Prop :=
  ∀ s : State, s.build.Legal →
    ∃ t, exec .hlerp s = .next t ∧ (s.regs.fr = 0 → t.regs.h = s.regs.ha) ∧
      (s.regs.fr = 65536 → t.regs.h = s.regs.hb) ∧ (s.regs.ha = s.regs.hb → t.regs.h = s.regs.ha)

/-- R197 (c) (the spec marks it derived): on the wrap path the hue is never inside the open forbidden band, at any
progress. -/
def Obligations.HlerpWrapPathAvoidsTheBand : Prop :=
  ∀ s : State, s.build.Legal → s.regs.fr.toNat ≤ 65536 → Crossing s →
    ∃ t, exec .hlerp s = .next t ∧ t.stat.wrap = true ∧
      (t.regs.h.toNat ≤ s.build.bandLo.toNat ∨ s.build.bandHi.toNat ≤ t.regs.h.toNat)

/-- R197 (b) (the spec marks it derived): on the direct path the hue lies between the anchors and moves monotonically with
the progress. -/
def Obligations.HlerpDirectPathIsMonotone : Prop :=
  ∀ (s : State) (fr : UnitVal), s.regs.fr.toNat ≤ fr.toNat → fr.toNat ≤ 65536 → ¬Crossing s →
    ∃ t u, exec .hlerp s = .next t ∧ exec .hlerp { s with regs := { s.regs with fr := fr } } = .next u ∧
      (s.regs.ha.toNat ≤ s.regs.hb.toNat → s.regs.ha.toNat ≤ t.regs.h.toNat ∧ t.regs.h.toNat ≤ u.regs.h.toNat ∧
        u.regs.h.toNat ≤ s.regs.hb.toNat) ∧
      (s.regs.hb.toNat ≤ s.regs.ha.toNat → s.regs.hb.toNat ≤ u.regs.h.toNat ∧ u.regs.h.toNat ≤ t.regs.h.toNat ∧
        t.regs.h.toNat ≤ s.regs.ha.toNat)

/-- R199 to R202: `RGB2HSV` leaves the value, saturation and hue formulas of `R`, `G`, `B` in `DV`, `DS`, `DH`, and `DHV`
says whether the hue is defined; nothing else changes. -/
def Obligations.Rgb2hsvComputesItsFormulas : Prop :=
  ∀ s : State, encode .rgb2hsv = 0x32000000 ∧ RejectsZ 0x32 s ∧
    ∃ t, exec .rgb2hsv s = .next t ∧
      t = { s with regs := { s.regs with dh := t.regs.dh, ds := t.regs.ds, dv := t.regs.dv },
                   stat := { s.stat with dhv := t.stat.dhv } } ∧
      let r : ℤ := s.regs.r.toNat
      let g : ℤ := s.regs.g.toNat
      let b : ℤ := s.regs.b.toNat
      let mx := max r (max g b)
      let dl := mx - min r (min g b)
      let n := if mx = r then g - b else if mx = g then b - r else r - g
      let base := if mx = r then 0 else if mx = g then 2 else 4
      (t.regs.dv.toNat : ℤ) = ⌊(mx : ℚ) * 65536 / 4095⌋ ∧ t.regs.dv.toNat ≤ 65536 ∧
      (mx = 0 → t.regs.ds = 0) ∧ (mx ≠ 0 → (t.regs.ds.toNat : ℤ) = ⌊(dl : ℚ) * 65536 / mx⌋) ∧
      t.regs.ds.toNat ≤ 65536 ∧
      (dl = 0 → t.regs.dh = 0 ∧ t.stat.dhv = false) ∧
      (dl ≠ 0 → t.stat.dhv = true ∧
        (t.regs.dh.toNat : ℤ) = ⌊((base * dl + n : ℤ) : ℚ) * 65536 / (6 * dl)⌋ % 65536)

/-- R203 (the spec marks it derived): after `HSV2RGB` then `RGB2HSV`, `DV <= V` always, and `DV = V` at full value. -/
def Obligations.RoundTripNeverExceedsTheValue : Prop :=
  ∀ s : State, s.regs.s.toNat ≤ 65536 → s.regs.v.toNat ≤ 65536 →
    ∃ t u, exec .hsv2rgb s = .next t ∧ exec .rgb2hsv t = .next u ∧ u.regs.dv.toNat ≤ s.regs.v.toNat ∧
      (s.regs.v = 65536 → u.regs.dv = 65536)

/-! ### All commands -/

/-- R216: `NOP` changes nothing; with a nonzero must-be-zero field it is no `NOP`. -/
def Obligations.NopChangesNothing : Prop :=
  ∀ s : State, exec .nop s = .next s ∧ encode .nop = 0x00000000 ∧ RejectsZ 0x00 s

/-- R10, with R120, R141, R170, R185, R216: from every state every command answers a next state, its effect or its command
error; none moves a pin, appends to `TRACE`, disturbs the chain, the ports or the build. -/
def Obligations.EveryCommandAnswersANextState : Prop :=
  ∀ (i : Instr) (s : State), ∃ t, exec i s = .next t ∧ t.pins = s.pins ∧ t.trace = s.trace ∧ t.chain = s.chain ∧
    t.host = s.host ∧ t.build = s.build

/-- R22 to R25, R217: which commands can change the frame buffer, each colour register, each flag and the error record. -/
def Obligations.EachRegisterHasItsWriters : Prop :=
  ∀ (i : Instr) (s t : State), exec i s = .next t →
    (t.fb ≠ s.fb → writesFb i = true) ∧
    (t.regs.h ≠ s.regs.h → i = .hlerp ∨ ∃ x, i = .ldh x) ∧ (t.regs.s ≠ s.regs.s → ∃ x, i = .lds x) ∧
    (t.regs.v ≠ s.regs.v → ∃ x, i = .ldv x) ∧ (t.regs.ha ≠ s.regs.ha → ∃ x, i = .ldha x) ∧
    (t.regs.hb ≠ s.regs.hb → ∃ x, i = .ldhb x) ∧ (t.regs.fr ≠ s.regs.fr → ∃ x, i = .ldf x) ∧
    ((t.regs.r, t.regs.g, t.regs.b) ≠ (s.regs.r, s.regs.g, s.regs.b) → i = .hsv2rgb ∨ ∃ c, i = .getpx c) ∧
    ((t.regs.dh, t.regs.ds, t.regs.dv) ≠ (s.regs.dh, s.regs.ds, s.regs.dv) → i = .rgb2hsv) ∧
    (t.stat.wrap ≠ s.stat.wrap → i = .hlerp) ∧ (t.stat.dhv ≠ s.stat.dhv → i = .rgb2hsv) ∧
    (t.stat.busy ≠ s.stat.busy → i = .xmit) ∧ (t.ser ≠ s.ser → i = .xmit) ∧
    ((t.stat.err, t.stat.errcode, t.stat.errinfo) ≠ (s.stat.err, s.stat.errcode, s.stat.errinfo) →
      hasChannel i = true ∧ s.stat.err = false)

/-! ### The output protocol -/

/-- R141: `XMIT` sets the serialiser to the first position of the frame and `BUSY`; no pin changes in this step. -/
def Obligations.XmitStartsAtTheLastChannel : Prop :=
  ∀ s : State, encode .xmit = 0x02000000 ∧ RejectsZ 0x02 s ∧
    exec .xmit s = .next { s with ser := { mode := .shift, ch := s.build.nch - 1, comp := .blue, bit := 11, ph := 0 },
                                  stat := { s.stat with busy := true } }

/-- R144, R145, R146: the three micro-steps of a bit take the pins through (d,0,0,0), (d,1,0,0), (d,0,0,0), with `d` the
bit at the position, and then move the position; nothing else of the block changes. -/
def Obligations.ShiftMicroStepsPulseTheClock : Prop :=
  ∀ s : State, s.Inv → s.resetLevel = false → s.ser.mode = .shift →
    let d := (s.cell s.ser.ch s.ser.comp).getLsbD s.ser.bit
    (s.ser.ph = 0 → s.pins.sclk = false ∧ s.pins.latch = false ∧ s.pins.blank = false ∧
      MicroStepsTo s ⟨d, false, false, false⟩ { s.ser with ph := 1 } true) ∧
    (s.ser.ph = 1 → MicroStepsTo s ⟨d, true, false, false⟩ { s.ser with ph := 2 } true) ∧
    (s.ser.ph = 2 → MicroStepsTo s ⟨d, false, false, false⟩ (nextPosition s.ser) true)

/-- R148, R150: the strobe raises `LATCH` and `BLANK` together and then releases them together, with `SDATA` at the last
bit sent and `SCLK` at 0; the release ends the transmission. -/
def Obligations.StrobeMicroStepsLatchAndRelease : Prop :=
  ∀ s : State, s.Inv → s.resetLevel = false → s.ser.mode = .strobe →
    let d := (s.cell 0 .green).getLsbD 0
    (s.ser.ph = 0 → MicroStepsTo s ⟨d, false, true, true⟩ { s.ser with ph := 1 } true) ∧
    (s.ser.ph = 1 →
      MicroStepsTo s ⟨d, false, false, false⟩ { mode := .idle, ch := 0, comp := .blue, bit := 0, ph := 0 } false)

/-- R142: bit number `n` of the frame is `FB[c][k][b]` with `c = NCH-1 - floor(n / 36)`, `k = floor((n mod 36) / 12)`,
`b = 11 - (n mod 12)`, and there are `36 * NCH` of them. -/
def Obligations.FrameBitsAreInTheSpecifiedOrder : Prop :=
  ∀ s : State, (frameBits s).length = 36 * s.build.nch ∧
    ∀ n, n < 36 * s.build.nch → ∃ k, Component.ofIndex (n % 36 / 12) = some k ∧
      (frameBits s)[n]? = some ((s.cell (s.build.nch - 1 - n / 36) k).getLsbD (11 - n % 12))

/-- R152 (e) (the spec marks it derived): one frame has `108 * NCH + 2` entries, `36 * NCH` of them with the clock up and
one with the latch up, and in every entry the latch and the blank agree. -/
def Obligations.FrameHasOneClockPulsePerBitAndOneLatch : Prop :=
  ∀ s : State, (xmitTrace (frameBits s)).length = 108 * s.build.nch + 2 ∧
    (xmitTrace (frameBits s)).countP (·.sclk) = 36 * s.build.nch ∧
    (xmitTrace (frameBits s)).countP (·.latch) = 1 ∧ ∀ p ∈ xmitTrace (frameBits s), p.Ok

/-- R151 (the spec marks it derived): an accepted `XMIT` whose transmission the host does not reset appends exactly
`XmitTrace(FrameBits(FB))` to `TRACE`, entry by entry with `BUSY = 1` and the buffer unchanged, and leaves everything else
but `SDATA`, the chain and the host's inputs as it was. -/
def Obligations.TransmissionSendsExactlyTheFrame : Prop :=
  ∀ (s : State) (ws : List Word), StartsFrame s ws →
    (∃ t, run (108 * s.build.nch + 3) s = .next t ∧
      t = { s with pins := { s.pins with sdata := (frameBits s).getLastD false },
                   trace := s.trace ++ xmitTrace (frameBits s), chain := t.chain,
                   host := { offered := ws, resetPin := false,
                             resetIn := s.host.resetIn.drop (108 * s.build.nch + 3) } }) ∧
    ∀ k, k < 108 * s.build.nch + 2 → ∃ u, run (k + 1) s = .next u ∧ u.stat.busy = true ∧ u.fb = s.fb ∧
      u.host.offered = ws ∧ u.trace = s.trace ++ (xmitTrace (frameBits s)).take k

/-- R163 (the spec marks it derived): after a complete transmission the chain displays exactly the frame buffer as it was
at acceptance; until the latch edge it displayed the previous frame, and its output is disabled only during the strobe. -/
def Obligations.TransmittedFrameIsDisplayedEndToEnd : Prop :=
  ∀ (s : State) (ws : List Word), StartsFrame s ws →
    ∃ x t u, run (108 * s.build.nch + 3) s = .next t ∧ run (108 * s.build.nch + 2) s = .next u ∧
      t.chain.vis = some x ∧ u.chain.vis = some x ∧ u.chain.oe = false ∧ t.chain.oe = true ∧
      x < 2 ^ s.build.nbits ∧ (∀ c k, c < s.build.nch → cellOf x c k = s.cell c k) ∧
      ∀ k, k ≤ 108 * s.build.nch → ∃ v, run (k + 1) s = .next v ∧ v.chain.vis = s.chain.vis ∧ v.chain.oe = true

/-- R160 (the spec marks it derived): after the shift entries of one frame the chain's register holds the frame whatever
it held before: `SR[NBITS-1-n]` is bit `n`, and each cell is found at its place. -/
def Obligations.ChainHoldsTheFrameAfterItsBits : Prop :=
  ∀ (s : State) (prev : Pins) (ch : Chain), prev.sclk = false →
    let sr := (Chain.observeAll s.build.nbits prev ((frameBits s).flatMap bitTrace) ch).sr
    (∀ n, n < s.build.nbits → (frameBits s)[n]? = some (sr.testBit (s.build.nbits - 1 - n))) ∧
    (∀ c k, c < s.build.nch → cellOf sr c k = s.cell c k) ∧
    (Chain.observeAll s.build.nbits prev ((frameBits s).flatMap bitTrace) ch).vis = ch.vis

/-- R152 (d) (the spec marks it derived): but for reset, `SDATA` changes only while the clock and the latch are down before
and after. -/
def Obligations.DataIsStableOverClockAndLatch : Prop :=
  ∀ s t : State, s.Inv → s.resetLevel = false → step s = .next t → t.pins.sdata ≠ s.pins.sdata →
    s.pins.sclk = false ∧ t.pins.sclk = false ∧ s.pins.latch = false ∧ t.pins.latch = false

/-- R153, R161 (the spec marks R153 derived): the displayed frame changes in no step but the one that raises `LATCH`, and
then becomes what the shift register holds. -/
def Obligations.DisplayChangesOnlyAtTheLatchEdge : Prop :=
  ∀ s t : State, s.Inv → step s = .next t → t.chain.vis ≠ s.chain.vis →
    s.ser.mode = .strobe ∧ s.pins.latch = false ∧ t.pins.latch = true ∧ t.chain.vis = some s.chain.sr

/-- R263: the least holding times of a transmission's micro-steps, as `holdFloor` gives them, add up to
`108 * NCH * T_PHASE + T_STROBE`, whatever the two parameters are. The model has no durations (log 7): this is a statement
about the sum of the model's lower bounds. -/
def Obligations.HoldFloorsOfATransmissionAddUpToTheBound : Prop :=
  ∀ (s t : State) (ws : List Word), StartsFrame s ws → step s = .next t →
    elapsedFloor (108 * s.build.nch + 2) t = 108 * s.build.nch * Config.tPhase + Config.tStrobe

/-- R219 (the spec marks it derived): a program of `n` words, `m` of them `XMIT`, is over after exactly
`n + m * (108 * NCH + 2)` steps, and not before. -/
def Obligations.ProgramEndsAfterItsStepCount : Prop :=
  ∀ s : State, s.Inv → s.Quiet → s.stat.busy = false →
    let total := s.host.offered.length + s.host.offered.count 0x02000000 * (108 * s.build.nch + 2)
    (∃ t, run total s = .next t ∧ t.RunOver) ∧ ∀ k, k < total → ∃ u, run k s = .next u ∧ ¬u.RunOver

/-! ### The read port -/

/-- R65: the read-port map, every register at its address and every cell in the window; every other address reads 0. -/
def Obligations.ReadPortShowsEachRegister : Prop :=
  ∀ s : State, s.build.Legal →
    (readPort 0x000 s).toNat =
      s.stat.busy.toNat + 2 * s.stat.err.toNat + 4 * s.stat.wrap.toNat + 8 * s.stat.dhv.toNat ∧
    (readPort 0x001 s).toNat = s.stat.errcode.toNat ∧ readPort 0x002 s = s.stat.errinfo ∧
    (readPort 0x003 s).toNat = s.build.nch + 65536 * s.build.bandEn.toNat ∧
    (readPort 0x004 s).toNat = s.build.bandLo.toNat ∧ (readPort 0x005 s).toNat = s.build.bandHi.toNat ∧
    (readPort 0x010 s).toNat = s.regs.h.toNat ∧ (readPort 0x011 s).toNat = s.regs.s.toNat ∧
    (readPort 0x012 s).toNat = s.regs.v.toNat ∧ (readPort 0x013 s).toNat = s.regs.ha.toNat ∧
    (readPort 0x014 s).toNat = s.regs.hb.toNat ∧ (readPort 0x015 s).toNat = s.regs.fr.toNat ∧
    (readPort 0x018 s).toNat = s.regs.r.toNat ∧ (readPort 0x019 s).toNat = s.regs.g.toNat ∧
    (readPort 0x01A s).toNat = s.regs.b.toNat ∧ (readPort 0x01C s).toNat = s.regs.dh.toNat ∧
    (readPort 0x01D s).toNat = s.regs.ds.toNat ∧ (readPort 0x01E s).toNat = s.regs.dv.toNat ∧
    (∀ (c : Nat) (k : Component), c < s.build.nch →
      (readPort (BitVec.ofNat 12 (0x400 + 4 * c + k.index)) s).toNat = (s.cell c k).toNat) ∧
    (∀ c k : Nat, c < 256 → k < 4 → k = 3 ∨ s.build.nch ≤ c →
      readPort (BitVec.ofNat 12 (0x400 + 4 * c + k)) s = 0) ∧
    (∀ a : BitVec 12, a.toNat < 0x400 ∨ 0x800 ≤ a.toNat →
      a.toNat ∉ [0x000, 0x001, 0x002, 0x003, 0x004, 0x005, 0x010, 0x011, 0x012, 0x013, 0x014, 0x015, 0x018, 0x019,
        0x01A, 0x01C, 0x01D, 0x01E] → readPort a s = 0)

/-! ### Invariants -/

/-- The invariant holds right after reset, in the default build and in every legal build with any shift register. -/
def Obligations.ResetStateMeetsTheInvariant : Prop :=
  State.reset.Inv ∧ ∀ (b : Config) (sr : Nat), b.Legal → sr < 2 ^ b.nbits → (State.powerOn b sr).Inv

/-- Every step keeps the invariant: the buffer stays canonical and inside the build (R20), the unit registers stay in
range (R23), the serialiser stays at a legal position (R28), `BUSY` agrees with it (R33), the pins and the history agree
with it (R152), the error record stays sound (R36), the chain's registers keep their width (R41). -/
def Obligations.EveryStepKeepsTheInvariant : Prop :=
  ∀ s t : State, s.Inv → step s = .next t → t.Inv

/-- R10: from a state that meets the invariant a step neither faults nor refuses. -/
def Obligations.InvariantStatesNeverStop : Prop :=
  ∀ s : State, s.Inv → ∃ t, step s = .next t

/-- R158: the chain observer always is where reading the whole of `TRACE` takes it. -/
def Obligations.ChainFollowsTheTrace : Prop :=
  State.reset.Observed ∧ ∀ s t : State, s.Observed → step s = .next t → t.Observed

/-- R40, R42, R251: no step changes the build-time constants, and `TRACE` only grows, by the new pins, one entry a step;
without a new entry no pin moves (a held reset, which adds no entry by the model's choice, log 4, holds the pins low). -/
def Obligations.BuildIsFixedAndHistoryOnlyGrows : Prop :=
  ∀ s t : State, step s = .next t → t.build = s.build ∧
    ((t.trace = s.trace ++ [t.pins]) ∨
      (t.trace = s.trace ∧ t.chain = s.chain ∧ (t.pins = s.pins ∨ (s.host.resetPin = true ∧ t.pins = Pins.low))))
end

