-- ==== Sys2Proof/Laws/Decode.lean ====
section
/-! SUPPORT. The fields read back from the words of each format, the fields and words as numbers, and what a word that
decodes to a command looks like. -/

namespace Sys2Proof

@[simp] theorem opOf_wordZ (op : BitVec 8) : opOf (wordZ op) = op := by
  ext i hi
  simp only [opOf, wordZ, BitVec.getElem_extractLsb', BitVec.getLsbD_append]
  split_ifs <;> first | omega | simp_all

@[simp] theorem imm24Of_wordZ (op : BitVec 8) : imm24Of (wordZ op) = 0 := by
  ext i hi
  simp only [imm24Of, wordZ, BitVec.getElem_extractLsb', BitVec.getLsbD_append]
  split_ifs <;> first | omega | simp_all

@[simp] theorem opOf_wordC (op ch : BitVec 8) : opOf (wordC op ch) = op := by
  ext i hi
  simp only [opOf, wordC, BitVec.getElem_extractLsb', BitVec.getLsbD_append]
  split_ifs <;> first | omega | (rw [show 24 + i - 16 - 8 = i by omega, BitVec.getLsbD_eq_getElem])

@[simp] theorem chOf_wordC (op ch : BitVec 8) : chOf (wordC op ch) = ch := by
  ext i hi
  simp only [chOf, wordC, BitVec.getElem_extractLsb', BitVec.getLsbD_append]
  split_ifs <;> first | omega | simp_all

@[simp] theorem imm16Of_wordC (op ch : BitVec 8) : imm16Of (wordC op ch) = 0 := by
  ext i hi
  simp only [imm16Of, wordC, BitVec.getElem_extractLsb', BitVec.getLsbD_append]
  split_ifs <;> first | omega | simp_all

@[simp] theorem opOf_wordCI (op ch : BitVec 8) (imm : BitVec 16) : opOf (wordCI op ch imm) = op := by
  ext i hi
  simp only [opOf, wordCI, BitVec.getElem_extractLsb', BitVec.getLsbD_append]
  split_ifs <;> first | omega | (rw [show 24 + i - 16 - 8 = i by omega, BitVec.getLsbD_eq_getElem])

@[simp] theorem chOf_wordCI (op ch : BitVec 8) (imm : BitVec 16) : chOf (wordCI op ch imm) = ch := by
  ext i hi
  simp only [chOf, wordCI, BitVec.getElem_extractLsb', BitVec.getLsbD_append]
  split_ifs <;> first | omega | simp_all

@[simp] theorem imm16Of_wordCI (op ch : BitVec 8) (imm : BitVec 16) : imm16Of (wordCI op ch imm) = imm := by
  ext i hi
  simp only [imm16Of, wordCI, BitVec.getElem_extractLsb', BitVec.getLsbD_append]
  split_ifs <;> first | omega | simp_all

@[simp] theorem opOf_wordI (op : BitVec 8) (imm : BitVec 24) : opOf (wordI op imm) = op := by
  ext i hi
  simp only [opOf, wordI, BitVec.getElem_extractLsb', BitVec.getLsbD_append]
  split_ifs <;> first | omega | simp_all

@[simp] theorem imm24Of_wordI (op : BitVec 8) (imm : BitVec 24) : imm24Of (wordI op imm) = imm := by
  ext i hi
  simp only [imm24Of, wordI, BitVec.getElem_extractLsb', BitVec.getLsbD_append]
  split_ifs <;> first | omega | simp_all

theorem opOf_toNat (w : Word) : (opOf w).toNat = w.toNat / 16777216 := by
  simp [opOf, BitVec.extractLsb'_toNat, Nat.shiftRight_eq_div_pow]; omega

theorem chOf_toNat (w : Word) : (chOf w).toNat = w.toNat / 65536 % 256 := by
  simp [chOf, BitVec.extractLsb'_toNat, Nat.shiftRight_eq_div_pow]

theorem imm16Of_toNat (w : Word) : (imm16Of w).toNat = w.toNat % 65536 := by
  simp [imm16Of, BitVec.extractLsb'_toNat]

theorem imm24Of_toNat (w : Word) : (imm24Of w).toNat = w.toNat % 16777216 := by
  simp [imm24Of, BitVec.extractLsb'_toNat]

theorem append_toNat {n m : Nat} (a : BitVec n) (b : BitVec m) : (a ++ b).toNat = a.toNat * 2 ^ m + b.toNat := by
  rw [BitVec.toNat_append, Nat.shiftLeft_eq, Nat.mul_comm, Nat.two_pow_add_eq_or_of_lt b.isLt]

theorem wordZ_toNat (op : BitVec 8) : (wordZ op).toNat = op.toNat * 16777216 := by
  rw [wordZ, append_toNat]; simp

theorem wordC_toNat (op ch : BitVec 8) : (wordC op ch).toNat = op.toNat * 16777216 + ch.toNat * 65536 := by
  simp only [wordC, append_toNat]; simp; omega

theorem wordCI_toNat (op ch : BitVec 8) (imm : BitVec 16) :
    (wordCI op ch imm).toNat = op.toNat * 16777216 + ch.toNat * 65536 + imm.toNat := by
  simp only [wordCI, append_toNat]; omega

theorem wordI_toNat (op : BitVec 8) (imm : BitVec 24) : (wordI op imm).toNat = op.toNat * 16777216 + imm.toNat := by
  rw [wordI, append_toNat]; omega

/-- What a word that decodes to a command looks like: its opcode and must-be-zero field, and the command with its
operands. -/
theorem decode_command_cases {w : Word} {i : Instr} (h : decode w = .command i) :
    (imm24Of w = 0 ∧
      (((opOf w).toNat = 0x00 ∧ i = .nop) ∨ ((opOf w).toNat = 0x01 ∧ i = .clear) ∨
       ((opOf w).toNat = 0x02 ∧ i = .xmit) ∨ ((opOf w).toNat = 0x30 ∧ i = .hsv2rgb) ∨
       ((opOf w).toNat = 0x31 ∧ i = .hlerp) ∨ ((opOf w).toNat = 0x32 ∧ i = .rgb2hsv))) ∨
    (imm16Of w = 0 ∧
      (((opOf w).toNat = 0x14 ∧ i = .putpx (chOf w)) ∨ ((opOf w).toNat = 0x15 ∧ i = .getpx (chOf w)))) ∨
    (((opOf w).toNat = 0x10 ∧ i = .setb (chOf w) (imm16Of w)) ∨
     ((opOf w).toNat = 0x11 ∧ i = .setr (chOf w) (imm16Of w)) ∨
     ((opOf w).toNat = 0x12 ∧ i = .setg (chOf w) (imm16Of w))) ∨
    (((opOf w).toNat = 0x20 ∧ i = .ldh (imm24Of w)) ∨ ((opOf w).toNat = 0x21 ∧ i = .lds (imm24Of w)) ∨
     ((opOf w).toNat = 0x22 ∧ i = .ldv (imm24Of w)) ∨ ((opOf w).toNat = 0x23 ∧ i = .ldha (imm24Of w)) ∨
     ((opOf w).toNat = 0x24 ∧ i = .ldhb (imm24Of w)) ∨ ((opOf w).toNat = 0x25 ∧ i = .ldf (imm24Of w))) := by
  unfold decode at h
  split at h <;> try simp only [formatZ, formatC, formatCI, formatI] at h
  all_goals first
    | (split at h
       · rename_i ho h0; cases h; simp [ho, h0]
       · cases h)
    | (next ho => cases h; simp [ho])
    | cases h

end Sys2Proof
end

