-- ==== Sys2Proof/Laws/Memory.lean ====
section
/-! SUPPORT. The laws of the frame buffer: read after write, clearing, and that every operation keeps the canonical form,
in which equal contents are equal lists. -/

namespace Sys2Proof.Machine

@[simp] theorem Memory.read_nil (x : Nat) : Memory.read [] x = Memory.blank := rfl

theorem Memory.read_cons (a : Nat) (v : Level) (m : Memory) (x : Nat) :
    Memory.read ((a, v) :: m) x = if a = x then v else Memory.read m x := rfl

@[simp] theorem Memory.wf_nil : Memory.wf [] = true := rfl

theorem Memory.wfFrom_cons (lo a : Nat) (v : Level) (m : Memory) :
    Memory.wfFrom lo ((a, v) :: m) = true ↔ lo ≤ a ∧ v ≠ Memory.blank ∧ Memory.wfFrom (a + 1) m = true := by
  simp [Memory.wfFrom, and_assoc]

/-- A canonical form from `lo` is one from any lower start. -/
theorem Memory.wfFrom_mono {lo lo' : Nat} (h : lo' ≤ lo) :
    ∀ {m : Memory}, Memory.wfFrom lo m = true → Memory.wfFrom lo' m = true
  | [], _ => rfl
  | (a, v) :: m, hm => by
    obtain ⟨h1, h2, h3⟩ := (Memory.wfFrom_cons ..).1 hm
    exact (Memory.wfFrom_cons ..).2 ⟨h.trans h1, h2, h3⟩

/-- Below its start a canonical form lists nothing. -/
theorem Memory.read_of_lt {lo x : Nat} (hx : x < lo) :
    ∀ {m : Memory}, Memory.wfFrom lo m = true → Memory.read m x = Memory.blank
  | [], _ => rfl
  | (a, v) :: m, hm => by
    obtain ⟨h1, -, h3⟩ := (Memory.wfFrom_cons ..).1 hm
    rw [Memory.read_cons, if_neg (by omega)]
    exact Memory.read_of_lt (by omega) h3

/-- A write puts its value in its cell. -/
theorem Memory.read_write_same (x : Nat) (v : Level) :
    ∀ {lo : Nat} {m : Memory}, Memory.wfFrom lo m = true → Memory.read (Memory.write m x v) x = v
  | _, [], _ => by
    by_cases hv : v = Memory.blank <;> simp [Memory.write, hv, Memory.read_cons]
  | lo, (a, u) :: m, hm => by
    obtain ⟨-, -, h3⟩ := (Memory.wfFrom_cons ..).1 hm
    by_cases hlt : x < a
    · by_cases hv : v = Memory.blank
      · have hr := Memory.read_of_lt (x := x) (by omega) h3
        simp [Memory.write, hlt, hv, Memory.read_cons, hr, show a ≠ x by omega]
      · simp [Memory.write, hlt, hv, Memory.read_cons]
    · by_cases heq : x = a
      · subst heq
        by_cases hv : v = Memory.blank
        · simp [Memory.write, hv, Memory.read_of_lt (x := x) (by omega) h3]
        · simp [Memory.write, hv, Memory.read_cons]
      · have ih := Memory.read_write_same x v h3
        simp [Memory.write, hlt, heq, Memory.read_cons, show a ≠ x by omega, ih]

/-- A write leaves every other cell alone. -/
theorem Memory.read_write_other {x y : Nat} (v : Level) (hxy : y ≠ x) :
    ∀ {m : Memory}, Memory.read (Memory.write m x v) y = Memory.read m y
  | [] => by
    by_cases hv : v = Memory.blank <;> simp [Memory.write, hv, Memory.read_cons, hxy.symm]
  | (a, u) :: m => by
    by_cases hlt : x < a
    · by_cases hv : v = Memory.blank <;> simp [Memory.write, hlt, hv, Memory.read_cons, hxy.symm]
    · by_cases heq : x = a
      · subst heq
        by_cases hv : v = Memory.blank <;> simp [Memory.write, hv, Memory.read_cons, hxy.symm]
      · have ih := Memory.read_write_other (m := m) v hxy
        simp [Memory.write, hlt, heq, Memory.read_cons, ih]

/-- A write keeps the canonical form. -/
theorem Memory.wfFrom_write (x : Nat) (v : Level) :
    ∀ {lo : Nat} {m : Memory}, lo ≤ x → Memory.wfFrom lo m = true → Memory.wfFrom lo (Memory.write m x v) = true
  | lo, [], hlo, _ => by
    by_cases hv : v = Memory.blank <;> simp [Memory.write, hv, Memory.wfFrom, hlo]
  | lo, (a, u) :: m, hlo, hm => by
    obtain ⟨h1, h2, h3⟩ := (Memory.wfFrom_cons ..).1 hm
    unfold Memory.write
    split
    · split
      · exact hm
      · next hv =>
        exact (Memory.wfFrom_cons ..).2 ⟨hlo, hv, (Memory.wfFrom_cons ..).2 ⟨by omega, h2, h3⟩⟩
    · split
      · next heq =>
        split
        · exact Memory.wfFrom_mono (by omega) h3
        · next hv => exact (Memory.wfFrom_cons ..).2 ⟨hlo, hv, heq ▸ h3⟩
      · exact (Memory.wfFrom_cons ..).2 ⟨h1, h2, Memory.wfFrom_write x v (by omega) h3⟩

theorem Memory.wf_write {m : Memory} (x : Nat) (v : Level) (h : m.wf = true) : (m.write x v).wf = true :=
  Memory.wfFrom_write x v (Nat.zero_le x) h

@[simp] theorem Memory.below_cons (n a : Nat) (v : Level) (m : Memory) :
    Memory.below n ((a, v) :: m) = true ↔ a < n ∧ Memory.below n m = true := by
  simp [Memory.below]

/-- A write to a cell below `n` lists no cell from `n` on. -/
theorem Memory.below_write {n x : Nat} (v : Level) (hx : x < n) :
    ∀ {m : Memory}, m.below n = true → (m.write x v).below n = true
  | [], _ => by
    by_cases hv : v = Memory.blank <;> simp [Memory.write, Memory.below, hv, hx]
  | (a, u) :: m, hm => by
    obtain ⟨ha, hm'⟩ := (Memory.below_cons ..).1 hm
    have ih := Memory.below_write (m := m) v hx hm'
    unfold Memory.write
    split_ifs <;> simp [ha, hm', hx, ih]

theorem Memory.clearBelow_cons (n a : Nat) (v : Level) (m : Memory) :
    Memory.clearBelow n ((a, v) :: m) = if n ≤ a then (a, v) :: Memory.clearBelow n m else Memory.clearBelow n m := by
  by_cases h : n ≤ a <;> simp [Memory.clearBelow, h]

/-- Clearing keeps the canonical form. -/
theorem Memory.wfFrom_clearBelow (n : Nat) :
    ∀ {lo : Nat} {m : Memory}, Memory.wfFrom lo m = true → Memory.wfFrom lo (m.clearBelow n) = true
  | _, [], _ => rfl
  | lo, (a, v) :: m, hm => by
    obtain ⟨h1, h2, h3⟩ := (Memory.wfFrom_cons ..).1 hm
    rw [Memory.clearBelow_cons]
    split
    · exact (Memory.wfFrom_cons ..).2 ⟨h1, h2, Memory.wfFrom_clearBelow n h3⟩
    · exact Memory.wfFrom_mono (by omega) (Memory.wfFrom_clearBelow n h3)

theorem Memory.wf_clearBelow {m : Memory} (n : Nat) (h : m.wf = true) : (m.clearBelow n).wf = true :=
  Memory.wfFrom_clearBelow n h

/-- Clearing zeroes the cells below `n` and leaves the others alone. -/
theorem Memory.read_clearBelow (n x : Nat) :
    ∀ {m : Memory}, (m.clearBelow n).read x = if x < n then Memory.blank else m.read x
  | [] => by simp [Memory.clearBelow]
  | (a, v) :: m => by
    have ih := Memory.read_clearBelow n x (m := m)
    rw [Memory.clearBelow_cons]
    by_cases ha : n ≤ a
    · by_cases hx : x < n
      · simp [ha, Memory.read_cons, ih, hx, show a ≠ x by omega]
      · simp [ha, Memory.read_cons, ih, hx]
    · by_cases hx : x < n
      · simp [ha, ih, hx]
      · simp [ha, Memory.read_cons, ih, hx, show a ≠ x by omega]

theorem Memory.below_clearBelow {n k : Nat} {m : Memory} (h : m.below n = true) : (m.clearBelow k).below n = true := by
  simp only [Memory.below, Memory.clearBelow, List.all_eq_true, List.mem_filter] at *
  exact fun e he => h e he.1

/-- Clearing a buffer with no cell from `n` on empties it. -/
theorem Memory.clearBelow_eq_nil {n : Nat} {m : Memory} (h : m.below n = true) : m.clearBelow n = [] := by
  simp only [Memory.below, Memory.clearBelow, List.all_eq_true, List.filter_eq_nil_iff, decide_eq_true_eq] at *
  exact fun e he => by have := h e he; omega

/-- A cell from `n` on reads blank when the buffer lists none. -/
theorem Memory.read_of_below {n x : Nat} (hx : n ≤ x) :
    ∀ {m : Memory}, m.below n = true → m.read x = Memory.blank
  | [], _ => rfl
  | (a, v) :: m, h => by
    have h' := (Memory.below_cons ..).1 h
    rw [Memory.read_cons, if_neg (by omega)]
    exact Memory.read_of_below hx h'.2

/-- Canonical buffers with equal contents are equal. -/
theorem Memory.eq_of_read_eq :
    ∀ {lo : Nat} {m m' : Memory}, Memory.wfFrom lo m = true → Memory.wfFrom lo m' = true →
      (∀ x, m.read x = m'.read x) → m = m'
  | _, [], [], _, _, _ => rfl
  | _, [], (b, w) :: m', _, h', he => by
    obtain ⟨-, h2, -⟩ := (Memory.wfFrom_cons ..).1 h'
    exact absurd (by simpa [Memory.read_cons] using (he b).symm) h2
  | _, (a, v) :: m, [], h, _, he => by
    obtain ⟨-, h2, -⟩ := (Memory.wfFrom_cons ..).1 h
    exact absurd (by simpa [Memory.read_cons] using he a) h2
  | lo, (a, v) :: m, (b, w) :: m', h, h', he => by
    obtain ⟨h1, h2, h3⟩ := (Memory.wfFrom_cons ..).1 h
    obtain ⟨k1, k2, k3⟩ := (Memory.wfFrom_cons ..).1 h'
    have hab : a = b := by
      rcases Nat.lt_trichotomy a b with hlt | heq | hgt
      · have := he a
        rw [Memory.read_cons, if_pos rfl, Memory.read_cons, if_neg (by omega),
          Memory.read_of_lt (by omega) k3] at this
        exact absurd this h2
      · exact heq
      · have := he b
        rw [Memory.read_cons, if_neg (by omega), Memory.read_of_lt (by omega) h3, Memory.read_cons, if_pos rfl] at this
        exact absurd this.symm k2
    subst hab
    have hvw : v = w := by simpa [Memory.read_cons] using he a
    subst hvw
    have htail : m = m' := Memory.eq_of_read_eq h3 k3 fun x => by
      by_cases hx : a = x
      · rw [Memory.read_of_lt (by omega) h3, Memory.read_of_lt (by omega) k3]
      · simpa [Memory.read_cons, hx] using he x
    rw [htail]

end Sys2Proof.Machine
end

