-- ==== Sys2Proof/Laws/Operands.lean ====
section
/-! SUPPORT. The operand forms as numbers: each lands in its register's legal range (spec rules R122, R171, R172). -/

namespace Sys2Proof.Machine

/-- `clamp12` is the mathematical clamp to 0 .. 4095. -/
theorem clamp12_toNat (x : Int) : ((clamp12 x).toNat : Int) = max 0 (min 4095 x) := by
  unfold clamp12
  split_ifs with h1 h2
  · simp; omega
  · simp; omega
  · rw [BitVec.toNat_ofInt]
    omega

/-- `clip1` is the mathematical clip to 0 .. 65536. -/
theorem clip1_toNat (x : Int) : ((clip1 x).toNat : Int) = max 0 (min 65536 x) := by
  unfold clip1
  split_ifs with h1 h2
  · simp; omega
  · simp; omega
  · rw [BitVec.toNat_ofInt]
    omega

/-- `wrap16` is the modulus by 65536. -/
theorem wrap16_toNat (x : Int) : ((wrap16 x).toNat : Int) = x % 65536 := by
  unfold wrap16
  rw [BitVec.toNat_ofInt]
  omega

/-- A saturation, value or progress load leaves a legal UQ1.16c value. -/
theorem unitOperand_le (imm : BitVec 24) : (unitOperand imm).toNat ≤ 65536 := by
  have := clip1_toNat (sext24 imm)
  unfold unitOperand
  omega

end Sys2Proof.Machine
end

