-- ==== Sys2Proof/Laws/State.lean ====
section
/-! SUPPORT. What each named update of the state leaves in each field, so that no proof unfolds a record update. -/

namespace Sys2Proof.Machine

@[simp] theorem State.writeCell_build (c : Nat) (k : Component) (v : Level) (s : State) : (s.writeCell c k v).build = s.build := rfl

@[simp] theorem State.writeCell_fb (c : Nat) (k : Component) (v : Level) (s : State) : (s.writeCell c k v).fb = s.fb.write (cellAddr c k) v := rfl

@[simp] theorem State.writeCell_regs (c : Nat) (k : Component) (v : Level) (s : State) : (s.writeCell c k v).regs = s.regs := rfl

@[simp] theorem State.writeCell_stat (c : Nat) (k : Component) (v : Level) (s : State) : (s.writeCell c k v).stat = s.stat := rfl

@[simp] theorem State.writeCell_ser (c : Nat) (k : Component) (v : Level) (s : State) : (s.writeCell c k v).ser = s.ser := rfl

@[simp] theorem State.writeCell_pins (c : Nat) (k : Component) (v : Level) (s : State) : (s.writeCell c k v).pins = s.pins := rfl

@[simp] theorem State.writeCell_trace (c : Nat) (k : Component) (v : Level) (s : State) : (s.writeCell c k v).trace = s.trace := rfl

@[simp] theorem State.writeCell_chain (c : Nat) (k : Component) (v : Level) (s : State) : (s.writeCell c k v).chain = s.chain := rfl

@[simp] theorem State.writeCell_host (c : Nat) (k : Component) (v : Level) (s : State) : (s.writeCell c k v).host = s.host := rfl

@[simp] theorem State.setBusy_build (b : Bool) (s : State) : (s.setBusy b).build = s.build := rfl

@[simp] theorem State.setBusy_fb (b : Bool) (s : State) : (s.setBusy b).fb = s.fb := rfl

@[simp] theorem State.setBusy_regs (b : Bool) (s : State) : (s.setBusy b).regs = s.regs := rfl

@[simp] theorem State.setBusy_stat (b : Bool) (s : State) : (s.setBusy b).stat = { s.stat with busy := b } := rfl

@[simp] theorem State.setBusy_ser (b : Bool) (s : State) : (s.setBusy b).ser = s.ser := rfl

@[simp] theorem State.setBusy_pins (b : Bool) (s : State) : (s.setBusy b).pins = s.pins := rfl

@[simp] theorem State.setBusy_trace (b : Bool) (s : State) : (s.setBusy b).trace = s.trace := rfl

@[simp] theorem State.setBusy_chain (b : Bool) (s : State) : (s.setBusy b).chain = s.chain := rfl

@[simp] theorem State.setBusy_host (b : Bool) (s : State) : (s.setBusy b).host = s.host := rfl

@[simp] theorem State.setWrap_build (b : Bool) (s : State) : (s.setWrap b).build = s.build := rfl

@[simp] theorem State.setWrap_fb (b : Bool) (s : State) : (s.setWrap b).fb = s.fb := rfl

@[simp] theorem State.setWrap_regs (b : Bool) (s : State) : (s.setWrap b).regs = s.regs := rfl

@[simp] theorem State.setWrap_stat (b : Bool) (s : State) : (s.setWrap b).stat = { s.stat with wrap := b } := rfl

@[simp] theorem State.setWrap_ser (b : Bool) (s : State) : (s.setWrap b).ser = s.ser := rfl

@[simp] theorem State.setWrap_pins (b : Bool) (s : State) : (s.setWrap b).pins = s.pins := rfl

@[simp] theorem State.setWrap_trace (b : Bool) (s : State) : (s.setWrap b).trace = s.trace := rfl

@[simp] theorem State.setWrap_chain (b : Bool) (s : State) : (s.setWrap b).chain = s.chain := rfl

@[simp] theorem State.setWrap_host (b : Bool) (s : State) : (s.setWrap b).host = s.host := rfl

@[simp] theorem State.setDhv_build (b : Bool) (s : State) : (s.setDhv b).build = s.build := rfl

@[simp] theorem State.setDhv_fb (b : Bool) (s : State) : (s.setDhv b).fb = s.fb := rfl

@[simp] theorem State.setDhv_regs (b : Bool) (s : State) : (s.setDhv b).regs = s.regs := rfl

@[simp] theorem State.setDhv_stat (b : Bool) (s : State) : (s.setDhv b).stat = { s.stat with dhv := b } := rfl

@[simp] theorem State.setDhv_ser (b : Bool) (s : State) : (s.setDhv b).ser = s.ser := rfl

@[simp] theorem State.setDhv_pins (b : Bool) (s : State) : (s.setDhv b).pins = s.pins := rfl

@[simp] theorem State.setDhv_trace (b : Bool) (s : State) : (s.setDhv b).trace = s.trace := rfl

@[simp] theorem State.setDhv_chain (b : Bool) (s : State) : (s.setDhv b).chain = s.chain := rfl

@[simp] theorem State.setDhv_host (b : Bool) (s : State) : (s.setDhv b).host = s.host := rfl

@[simp] theorem State.emit_build (s : State) : (s.emit).build = s.build := rfl

@[simp] theorem State.emit_fb (s : State) : (s.emit).fb = s.fb := rfl

@[simp] theorem State.emit_regs (s : State) : (s.emit).regs = s.regs := rfl

@[simp] theorem State.emit_stat (s : State) : (s.emit).stat = s.stat := rfl

@[simp] theorem State.emit_ser (s : State) : (s.emit).ser = s.ser := rfl

@[simp] theorem State.emit_pins (s : State) : (s.emit).pins = s.pins := rfl

@[simp] theorem State.emit_trace (s : State) : (s.emit).trace = s.trace ++ [s.pins] := rfl

@[simp] theorem State.emit_chain (s : State) :
    (s.emit).chain = Chain.observe s.build.nbits s.lastPins s.pins s.chain := rfl

@[simp] theorem State.emit_host (s : State) : (s.emit).host = s.host := rfl

@[simp] theorem State.sampleReset_build (b : Bool) (s : State) : (s.sampleReset b).build = s.build := rfl

@[simp] theorem State.sampleReset_fb (b : Bool) (s : State) : (s.sampleReset b).fb = s.fb := rfl

@[simp] theorem State.sampleReset_regs (b : Bool) (s : State) : (s.sampleReset b).regs = s.regs := rfl

@[simp] theorem State.sampleReset_stat (b : Bool) (s : State) : (s.sampleReset b).stat = s.stat := rfl

@[simp] theorem State.sampleReset_ser (b : Bool) (s : State) : (s.sampleReset b).ser = s.ser := rfl

@[simp] theorem State.sampleReset_pins (b : Bool) (s : State) : (s.sampleReset b).pins = s.pins := rfl

@[simp] theorem State.sampleReset_trace (b : Bool) (s : State) : (s.sampleReset b).trace = s.trace := rfl

@[simp] theorem State.sampleReset_chain (b : Bool) (s : State) : (s.sampleReset b).chain = s.chain := rfl

@[simp] theorem State.sampleReset_host (b : Bool) (s : State) :
    (s.sampleReset b).host = { s.host with resetPin := b, resetIn := s.host.resetIn.tail } := rfl

@[simp] theorem State.takeOffered_build (ws : List Word) (s : State) : (s.takeOffered ws).build = s.build := rfl

@[simp] theorem State.takeOffered_fb (ws : List Word) (s : State) : (s.takeOffered ws).fb = s.fb := rfl

@[simp] theorem State.takeOffered_regs (ws : List Word) (s : State) : (s.takeOffered ws).regs = s.regs := rfl

@[simp] theorem State.takeOffered_stat (ws : List Word) (s : State) : (s.takeOffered ws).stat = s.stat := rfl

@[simp] theorem State.takeOffered_ser (ws : List Word) (s : State) : (s.takeOffered ws).ser = s.ser := rfl

@[simp] theorem State.takeOffered_pins (ws : List Word) (s : State) : (s.takeOffered ws).pins = s.pins := rfl

@[simp] theorem State.takeOffered_trace (ws : List Word) (s : State) : (s.takeOffered ws).trace = s.trace := rfl

@[simp] theorem State.takeOffered_chain (ws : List Word) (s : State) : (s.takeOffered ws).chain = s.chain := rfl

@[simp] theorem State.takeOffered_host (ws : List Word) (s : State) : (s.takeOffered ws).host = { s.host with offered := ws } := rfl

@[simp] theorem State.offer_build (ws : List Word) (s : State) : (s.offer ws).build = s.build := rfl

@[simp] theorem State.offer_fb (ws : List Word) (s : State) : (s.offer ws).fb = s.fb := rfl

@[simp] theorem State.offer_regs (ws : List Word) (s : State) : (s.offer ws).regs = s.regs := rfl

@[simp] theorem State.offer_stat (ws : List Word) (s : State) : (s.offer ws).stat = s.stat := rfl

@[simp] theorem State.offer_ser (ws : List Word) (s : State) : (s.offer ws).ser = s.ser := rfl

@[simp] theorem State.offer_pins (ws : List Word) (s : State) : (s.offer ws).pins = s.pins := rfl

@[simp] theorem State.offer_trace (ws : List Word) (s : State) : (s.offer ws).trace = s.trace := rfl

@[simp] theorem State.offer_chain (ws : List Word) (s : State) : (s.offer ws).chain = s.chain := rfl

@[simp] theorem State.offer_host (ws : List Word) (s : State) :
    (s.offer ws).host = { s.host with offered := s.host.offered ++ ws } := rfl

@[simp] theorem blockReset_build (s : State) : (blockReset s).build = s.build := rfl

@[simp] theorem blockReset_fb (s : State) : (blockReset s).fb = [] := rfl

@[simp] theorem blockReset_regs (s : State) : (blockReset s).regs = Regs.zero := rfl

@[simp] theorem blockReset_stat (s : State) : (blockReset s).stat = Status.zero := rfl

@[simp] theorem blockReset_ser (s : State) : (blockReset s).ser = Serialiser.idle := rfl

@[simp] theorem blockReset_pins (s : State) : (blockReset s).pins = Pins.low := rfl

@[simp] theorem blockReset_trace (s : State) : (blockReset s).trace = s.trace := rfl

@[simp] theorem blockReset_chain (s : State) : (blockReset s).chain = s.chain := rfl

@[simp] theorem blockReset_host (s : State) : (blockReset s).host = s.host := rfl

end Sys2Proof.Machine
end

