-- ==== Sys2Proof/Laws/Ops.lean ====
section
/-! SUPPORT. One lemma per shared operation that says everything it can do. -/

namespace Sys2Proof.Machine

theorem Component.index_lt (k : Component) : k.index < 3 := by cases k <;> decide

theorem Component.index_inj {k l : Component} (h : k.index = l.index) : k = l := by
  cases k <;> cases l <;> simp_all [Component.index]

@[simp] theorem Component.ofIndex_index (k : Component) : Component.ofIndex k.index = some k := by cases k <;> rfl

/-- Two cells have one number only if they are one cell. -/
@[simp] theorem cellAddr_inj {c d : Nat} {k l : Component} : cellAddr c k = cellAddr d l ↔ c = d ∧ k = l := by
  constructor
  · intro h
    have hk := k.index_lt
    have hl := l.index_lt
    simp only [cellAddr] at h
    exact ⟨by omega, Component.index_inj (by omega)⟩
  · rintro ⟨rfl, rfl⟩; rfl

/-- The cells of the existing channels are the numbers below `3 * NCH`. -/
@[simp] theorem cellAddr_lt {n c : Nat} {k : Component} : cellAddr c k < 3 * n ↔ c < n := by
  have := k.index_lt
  simp only [cellAddr]
  omega

/-- A cell reads the value just written to it. -/
theorem State.cell_writeCell_same {s : State} (h : s.fb.wf = true) (c : Nat) (k : Component) (v : Level) :
    (s.writeCell c k v).cell c k = v := Memory.read_write_same _ _ h

/-- A cell write leaves every other cell alone. -/
theorem State.cell_writeCell_other {c d : Nat} {k l : Component} (h : ¬(d = c ∧ l = k)) (s : State) (v : Level) :
    (s.writeCell c k v).cell d l = s.cell d l := by
  apply Memory.read_write_other
  simpa using h

/-- The cells depend on the frame buffer alone. -/
theorem State.cell_congr {s t : State} (h : t.fb = s.fb) (c : Nat) (k : Component) : t.cell c k = s.cell c k := by
  simp [State.cell, h]

@[simp] theorem State.cell_emit (s : State) (c : Nat) (k : Component) : s.emit.cell c k = s.cell c k := rfl

/-- What raising a command error does: record the first error, else nothing (R229). -/
theorem raiseCmdError_cases (c : Cause) (w : Word) (s : State) :
    (s.stat.err = true ∧ raiseCmdError c w s = s) ∨
    (s.stat.err = false ∧
      raiseCmdError c w s = { s with stat := { s.stat with err := true, errcode := c.code, errinfo := w } }) := by
  cases h : s.stat.err <;> simp [raiseCmdError, h]

/-- A command error changes nothing but the error record (R232). -/
theorem raiseCmdError_frame (c : Cause) (w : Word) (s : State) :
    raiseCmdError c w s = { s with stat := (raiseCmdError c w s).stat } := by
  obtain ⟨-, h⟩ | ⟨-, h⟩ := raiseCmdError_cases c w s <;> rw [h]

@[simp] theorem raiseCmdError_busy (c : Cause) (w : Word) (s : State) :
    (raiseCmdError c w s).stat.busy = s.stat.busy := by
  obtain ⟨-, h⟩ | ⟨-, h⟩ := raiseCmdError_cases c w s <;> rw [h]

theorem causeCode_ne_zero (c : Cause) : c.code ≠ 0 := by cases c <;> decide

/-- A command on a channel takes its effect when the channel exists, else raises `BAD_CHANNEL`. -/
theorem onChannel_cases (i : Instr) (c : BitVec 8) (effect : State → State) (s : State) :
    (c.toNat < s.build.nch ∧ onChannel i c effect s = .next (effect s)) ∨
    (s.build.nch ≤ c.toNat ∧ onChannel i c effect s = .next (raiseCmdError .badChannel (encode i) s)) := by
  by_cases h : c.toNat < s.build.nch
  · exact .inl ⟨h, if_pos h⟩
  · exact .inr ⟨by omega, if_neg h⟩

/-- A step with `RESET` asserted: the block at its reset values, one entry of the trace when the assertion is new. -/
theorem resetStep_cases (s : State) :
    (s.host.resetPin = true ∧ resetStep s = blockReset (s.sampleReset true)) ∨
    (s.host.resetPin = false ∧ resetStep s = (blockReset (s.sampleReset true)).emit) := by
  cases h : s.host.resetPin <;> simp [resetStep, h]

/-- Reset raises no line, so the observer neither shifts nor latches (R162, R252). -/
@[simp] theorem Chain.observe_low (nbits : Nat) (prev : Pins) (ch : Chain) :
    Chain.observe nbits prev Pins.low ch = { ch with oe := true } := by
  simp [Chain.observe, Chain.shift, Pins.low]

end Sys2Proof.Machine
end

