-- ==== Sys2Proof/Laws/PerInstr.lean ====
section
/-! SUPPORT. Statements made for every command as syntax, one lemma per constructor. -/

namespace Sys2Proof.Laws.OpcodeField

/-- The opcode of a command in the opcode map (spec/30_encoding.md rule R98). -/
def opcode : Instr → BitVec 8
  | .nop => 0x00
  | .clear => 0x01
  | .xmit => 0x02
  | .setb _ _ => 0x10
  | .setr _ _ => 0x11
  | .setg _ _ => 0x12
  | .putpx _ => 0x14
  | .getpx _ => 0x15
  | .ldh _ => 0x20
  | .lds _ => 0x21
  | .ldv _ => 0x22
  | .ldha _ => 0x23
  | .ldhb _ => 0x24
  | .ldf _ => 0x25
  | .hsv2rgb => 0x30
  | .hlerp => 0x31
  | .rgb2hsv => 0x32

/-- The encoder puts the command's opcode in `w[31:24]`, and its channel, if any, in `w[23:16]` (R93, R94). -/
def Statement (i : Instr) : Prop := opOf (encode i) = opcode i ∧ ∀ c ∈ i.channel, chOf (encode i) = c

theorem nop : Statement .nop := by simp [Statement, encode, opcode, Instr.channel]
theorem clear : Statement .clear := by simp [Statement, encode, opcode, Instr.channel]
theorem xmit : Statement .xmit := by simp [Statement, encode, opcode, Instr.channel]
theorem setb (ch : BitVec 8) (imm : BitVec 16) : Statement (.setb ch imm) := by
  simp [Statement, encode, opcode, Instr.channel]
theorem setr (ch : BitVec 8) (imm : BitVec 16) : Statement (.setr ch imm) := by
  simp [Statement, encode, opcode, Instr.channel]
theorem setg (ch : BitVec 8) (imm : BitVec 16) : Statement (.setg ch imm) := by
  simp [Statement, encode, opcode, Instr.channel]
theorem putpx (ch : BitVec 8) : Statement (.putpx ch) := by simp [Statement, encode, opcode, Instr.channel]
theorem getpx (ch : BitVec 8) : Statement (.getpx ch) := by simp [Statement, encode, opcode, Instr.channel]
theorem ldh (imm : BitVec 24) : Statement (.ldh imm) := by simp [Statement, encode, opcode, Instr.channel]
theorem lds (imm : BitVec 24) : Statement (.lds imm) := by simp [Statement, encode, opcode, Instr.channel]
theorem ldv (imm : BitVec 24) : Statement (.ldv imm) := by simp [Statement, encode, opcode, Instr.channel]
theorem ldha (imm : BitVec 24) : Statement (.ldha imm) := by simp [Statement, encode, opcode, Instr.channel]
theorem ldhb (imm : BitVec 24) : Statement (.ldhb imm) := by simp [Statement, encode, opcode, Instr.channel]
theorem ldf (imm : BitVec 24) : Statement (.ldf imm) := by simp [Statement, encode, opcode, Instr.channel]
theorem hsv2rgb : Statement .hsv2rgb := by simp [Statement, encode, opcode, Instr.channel]
theorem hlerp : Statement .hlerp := by simp [Statement, encode, opcode, Instr.channel]
theorem rgb2hsv : Statement .rgb2hsv := by simp [Statement, encode, opcode, Instr.channel]

end Sys2Proof.Laws.OpcodeField
end

