-- ==== Sys2Proof/Laws/Step.lean ====
section
/-! SUPPORT. What one step can do, said once: the inversion of `step`, of a micro-step and of an acceptance, and the laws
of running several steps. -/

namespace Sys2Proof.Machine

/-- What a micro-step does when it answers a next state: the one rule its position enables (R143). -/
theorem microStep_cases {s t : State} (h : microStep s = .next t) :
    (s.ser.mode = .shift ∧ s.ser.ph = 0 ∧ t = dataPhase s) ∨
    (s.ser.mode = .shift ∧ s.ser.ph = 1 ∧ t = clockRise s) ∨
    (s.ser.mode = .shift ∧ s.ser.ph = 2 ∧ t = clockFall s) ∨
    (s.ser.mode = .strobe ∧ s.ser.ph = 0 ∧ t = strobeAssert s) ∨
    (s.ser.mode = .strobe ∧ s.ser.ph = 1 ∧ t = strobeRelease s) := by
  unfold microStep at h
  split at h <;> simp_all

/-- A legal position that is not idle enables a micro-step. -/
theorem microStep_of_legal {s : State} {n : Nat} (hl : s.ser.legal n = true) (hm : s.ser.mode ≠ .idle) :
    ∃ t, microStep s = .next t := by
  unfold Serialiser.legal at hl
  split at hl
  · contradiction
  · next hs =>
    have hp : s.ser.ph = 0 ∨ s.ser.ph = 1 ∨ s.ser.ph = 2 := by
      have := (of_decide_eq_true hl).2.2
      omega
    rcases hp with hp | hp | hp <;> simp [microStep, hs, hp]
  · next hs =>
    have hp : s.ser.ph = 0 ∨ s.ser.ph = 1 := by
      have := (of_decide_eq_true hl).2.2.2
      omega
    rcases hp with hp | hp <;> simp [microStep, hs, hp]

/-- Where the position goes after a bit (R146). -/
theorem advance_cases (p : Serialiser) :
    (0 < p.bit ∧ advance p = { p with bit := p.bit - 1, ph := 0 }) ∨
    (p.bit = 0 ∧ p.comp = .blue ∧ advance p = { p with bit := 11, comp := .red, ph := 0 }) ∨
    (p.bit = 0 ∧ p.comp = .red ∧ advance p = { p with bit := 11, comp := .green, ph := 0 }) ∨
    (p.bit = 0 ∧ p.comp = .green ∧ 0 < p.ch ∧
      advance p = { p with bit := 11, comp := .blue, ch := p.ch - 1, ph := 0 }) ∨
    (p.bit = 0 ∧ p.comp = .green ∧ p.ch = 0 ∧
      advance p = { mode := .strobe, ch := 0, comp := .blue, bit := 0, ph := 0 }) := by
  by_cases hb : 0 < p.bit
  · simp [advance, hb]
  · obtain hc | hc | hc : p.comp = .blue ∨ p.comp = .red ∨ p.comp = .green := by cases p.comp <;> simp
    · simp [advance, hb, hc]; omega
    · simp [advance, hb, hc]; omega
    · by_cases hch : 0 < p.ch
      · simp [advance, hb, hc, hch]; omega
      · simp [advance, hb, hc, hch]; omega

/-- What an acceptance does: run the decoded command, or record the rejection (R91). -/
theorem acceptWord_cases (w : Word) (s : State) :
    (∃ i, decode w = .command i ∧ acceptWord w s = exec i s) ∨
    (∃ c, decode w = .rejected c ∧ acceptWord w s = .next (raiseCmdError c w s)) := by
  cases h : decode w with
  | command i => exact .inl ⟨i, rfl, by simp [acceptWord, h]⟩
  | rejected c => exact .inr ⟨c, rfl, by simp [acceptWord, h]⟩

/-- What a step does when it answers a next state (R9, R235). -/
theorem step_cases {s t : State} (h : step s = .next t) :
    (s.resetLevel = true ∧ t = resetStep s) ∨
    (s.resetLevel = false ∧ s.stat.busy = true ∧ microStep (s.sampleReset false) = .next t) ∨
    (s.resetLevel = false ∧ s.stat.busy = false ∧ s.host.offered = [] ∧ t = s.sampleReset false) ∨
    (s.resetLevel = false ∧ s.stat.busy = false ∧ ∃ w ws, s.host.offered = w :: ws ∧
      acceptWord w ((s.sampleReset false).takeOffered ws) = .next t) := by
  unfold step at h
  split at h
  · next hr => simp_all
  · next hr =>
    split at h
    · next hb => simp_all
    · next hb =>
      unfold sequencerStep at h
      split at h
      · next ho => simp_all
      · next w ws ho => exact .inr (.inr (.inr ⟨by simpa using hr, by simpa using hb, w, ws, ho, h⟩))

theorem step_of_reset {s : State} (h : s.resetLevel = true) : step s = .next (resetStep s) := by
  simp [step, h]

theorem step_of_busy {s : State} (hr : s.resetLevel = false) (hb : s.stat.busy = true) :
    step s = microStep (s.sampleReset false) := by
  simp [step, hr, hb]

theorem step_of_ready {s : State} (hr : s.resetLevel = false) (hb : s.stat.busy = false) :
    step s = sequencerStep (s.sampleReset false) := by
  simp [step, hr, hb]

/-- A quiet host does not assert `RESET` in the next step. -/
theorem State.Quiet.resetLevel {s : State} (h : s.Quiet) : s.resetLevel = false := by
  unfold State.resetLevel
  cases hl : s.host.resetIn with
  | nil => rfl
  | cons b bs => exact h b (by simp [hl])

/-- A quiet host stays quiet. -/
theorem State.Quiet.sampleReset {s : State} (h : s.Quiet) (b : Bool) : (s.sampleReset b).Quiet :=
  fun x hx => h x (List.mem_of_mem_tail hx)

@[simp] theorem run_zero (s : State) : run 0 s = .next s := rfl

theorem run_succ_of_step {s t : State} (h : step s = .next t) (k : Nat) : run (k + 1) s = run k t := by
  simp [run, h]

/-- Runs are composed end to end. -/
theorem run_add {j : Nat} : ∀ {k : Nat} {s t : State}, run k s = .next t → run (k + j) s = run j t
  | 0, s, t, h => by
    obtain rfl : s = t := by simpa using h
    simp
  | k + 1, s, t, h => by
    cases hs : step s with
    | next u =>
      rw [run_succ_of_step hs] at h
      rw [Nat.add_right_comm, run_succ_of_step hs]
      exact run_add h
    | fault f => simp [run, hs] at h
    | refused r => simp [run, hs] at h

/-- `run` is the host's own way of running the machine. -/
theorem run_eq_core_run : ∀ (k : Nat) (s : State), run k s = Sys2Proof.core.run k s
  | 0, _ => rfl
  | k + 1, s => by
    cases h : step s with
    | next t =>
      have h' : Sys2Proof.core.step s = .next t := h
      simp only [run, Host.Core.run, h, h']
      exact run_eq_core_run k t
    | fault f =>
      have h' : Sys2Proof.core.step s = .fault f := h
      simp only [run, Host.Core.run, h, h']
      rfl
    | refused r =>
      have h' : Sys2Proof.core.step s = .refused r := h
      simp only [run, Host.Core.run, h, h']
      rfl

end Sys2Proof.Machine
end

