-- ==== Sys2Proof/Laws/Timing.lean ====
section
/-! SUPPORT. What the least holding time of a step can be (spec rules R250, R252, R263). -/

namespace Sys2Proof.Machine

/-- While no reset comes and a transmission runs, the micro-step's levels are held. -/
theorem holdsItsLevels_of_quiet {s : State} (hq : ∀ b ∈ s.host.resetIn, b = false) (hb : s.stat.busy = true) :
    holdsItsLevels s = true := by
  obtain h | ⟨a, h⟩ | ⟨a, b, l, h⟩ :
      s.host.resetIn = [] ∨ (∃ a, s.host.resetIn = [a]) ∨ ∃ a b l, s.host.resetIn = a :: b :: l := by
    match s.host.resetIn with
    | [] => exact .inl rfl
    | [a] => exact .inr (.inl ⟨a, rfl⟩)
    | a :: b :: l => exact .inr (.inr ⟨a, b, l, rfl⟩)
  all_goals simp_all [holdsItsLevels, State.resetLevel, State.sampleReset]

/-- A step with `RESET` asserted holds nothing. -/
theorem holdFloor_of_reset {s : State} (h : s.resetLevel = true) : holdFloor s = 0 := by
  simp [holdFloor, holdsItsLevels, h]

/-- A step without a transmission holds nothing. -/
theorem holdFloor_of_idle {s : State} (h : s.stat.busy = false) : holdFloor s = 0 := by
  simp [holdFloor, holdsItsLevels, h]

/-- The one case for each kind of micro-step, once its levels are held. -/
theorem holdFloor_cases {s : State} (h : holdsItsLevels s = true) :
    (s.ser.mode = .shift ∧ holdFloor s = Config.tPhase) ∨
    (s.ser.mode = .strobe ∧ s.ser.ph = 0 ∧ holdFloor s = Config.tStrobe) ∨
    (s.ser.mode ≠ .shift ∧ ¬(s.ser.mode = .strobe ∧ s.ser.ph = 0) ∧ holdFloor s = 0) := by
  simp only [holdFloor, h, if_true]
  split <;> simp_all

end Sys2Proof.Machine
end

