-- ==== Sys2Proof/Tests/Slice0.lean ====
section
/-! SUPPORT. Tests with expected results from spec/ (the sections of 95_test_vectors.md are named), and for each statement
with hypotheses a witness that meets them. -/

namespace Sys2Proof.Tests

open Sys2Proof.Machine Sys2Proof.Claims

/-- A part of the state a step or a meaning answers with. -/
def after {α : Type} (r : Result) (f : State → α) : Option α :=
  match r with
  | .next t => some (f t)
  | .fault _ => none
  | .refused _ => none

/-- The fresh block with the word `w` offered. -/
def offering (w : Word) : State := State.reset.offer [w]

/-- The fresh block with colour registers `r`. -/
def withRegs (r : Regs) : State := { State.reset with regs := r }

/-- A part of the state after the fresh block has taken the word `w`. -/
def take {α : Type} (w : Word) (f : State → α) : Option α := after (step (offering w)) f

/-- The three cells of a channel, blue, red, green. -/
def tuple (c : Nat) (s : State) : Level × Level × Level := (s.cell c .blue, s.cell c .red, s.cell c .green)

/-- The error record. -/
def record (s : State) : Bool × BitVec 2 × Word := (s.stat.err, s.stat.errcode, s.stat.errinfo)

/-! ### Decoding, words written out from R92 and R98 -/

theorem test_decode_frame_and_system :
    decode 0b00000000000000000000000000000000 = .command .nop ∧
    decode 0b00000001000000000000000000000000 = .command .clear ∧
    decode 0b00000010000000000000000000000000 = .command .xmit ∧
    decode 0b00010000000001110000111111111111 = .command (.setb 7 0x0FFF) ∧
    decode 0b00010001000000111111111111111011 = .command (.setr 3 0xFFFB) ∧
    decode 0b00010010111111110000000000000000 = .command (.setg 255 0) ∧
    decode 0b00010100000001110000000000000000 = .command (.putpx 7) ∧
    decode 0b00010101000000010000000000000000 = .command (.getpx 1) := by decide

theorem test_decode_loads_and_colour :
    decode 0b00100000111111111111111111111111 = .command (.ldh 0xFFFFFF) ∧
    decode 0b00100001000000010000000000000000 = .command (.lds 0x010000) ∧
    decode 0b00100010011111111111111111111111 = .command (.ldv 0x7FFFFF) ∧
    decode 0b00100011000000001111001100110011 = .command (.ldha 0x00F333) ∧
    decode 0b00100100000000000000110011001100 = .command (.ldhb 0x000CCC) ∧
    decode 0b00100101000000001000000000000000 = .command (.ldf 0x008000) ∧
    decode 0b00110000000000000000000000000000 = .command .hsv2rgb ∧
    decode 0b00110001000000000000000000000000 = .command .hlerp ∧
    decode 0b00110010000000000000000000000000 = .command .rgb2hsv := by decide

/-- Section 2.1. -/
theorem test_decode_rejections :
    classify 8 0x00000001 = .rejected .reservedField ∧ classify 8 0x02000001 = .rejected .reservedField ∧
    classify 8 0x03000000 = .rejected .illegalOpcode ∧ classify 8 0x10080000 = .rejected .badChannel ∧
    classify 8 0x12FF0000 = .rejected .badChannel ∧ classify 256 0x12FF0000 = .command (.setg 255 0) ∧
    classify 8 0x13000000 = .rejected .illegalOpcode ∧ classify 8 0x14070001 = .rejected .reservedField ∧
    classify 8 0x14080001 = .rejected .reservedField ∧ classify 8 0x14080000 = .rejected .badChannel ∧
    classify 8 0x16000000 = .rejected .illegalOpcode ∧ classify 8 0x26000000 = .rejected .illegalOpcode ∧
    classify 8 0x30800000 = .rejected .reservedField ∧ classify 8 0x33000000 = .rejected .illegalOpcode ∧
    classify 8 0xFFFFFFFF = .rejected .illegalOpcode := by decide

theorem test_encode_words :
    encode (.setb 3 0x1000) = 0x10031000 ∧ encode (.putpx 5) = 0x14050000 ∧ encode (.ldf 0x010000) = 0x25010000 ∧
    encode .rgb2hsv = 0x32000000 := by decide

/-- The check of WellFormed refuses a channel that the build does not have, for each command that has one, and takes the
last channel. -/
theorem test_wellformed_channel :
    (Instr.setb 8 0).wf 8 = false ∧ (Instr.setr 8 0).wf 8 = false ∧ (Instr.setg 8 0).wf 8 = false ∧
    (Instr.putpx 8).wf 8 = false ∧ (Instr.getpx 8).wf 8 = false ∧ (Instr.getpx 7).wf 8 = true ∧
    (Instr.putpx 255).wf 256 = true ∧ (Instr.ldh 0xFFFFFF).wf 1 = true := by decide

theorem test_table_word :
    decodeTableWord 32 0x12FF0001 = some (.setg 255 1) ∧ decodeTableWord 32 0x14000001 = none ∧
    decodeTableWord 32 0x31000000 = some .hlerp := by decide

/-- A block in the middle of a transmission, another word waiting, `RESET` about to rise. -/
def interrupted : State :=
  { State.reset with
    ser := firstPosition 8
    stat := { Status.zero with busy := true }
    host := { offered := [0x01000000], resetPin := false, resetIn := [true] } }

/-- The placed word is what the very next step accepts, from any of these states. -/
theorem test_placed_word_runs_next :
    after (step (State.reset.withFetchWord 32 0x11020064)) (fun t => (t.fb, t.host.offered)) =
      some ([(7, 100)], []) ∧
    after (step (interrupted.withFetchWord 32 0x20FFFFFF)) (fun t => (t.regs.h, t.host.offered, t.host.resetIn)) =
      some (65535, [0x01000000], [true]) := by decide

/-! ### One step of each command -/

/-- Section 2.6: no change. -/
theorem test_nop : take 0x00000000 id = some State.reset := by decide

/-- Section 2.2: all cells 0, registers unchanged. -/
theorem test_clear :
    after (step { offering 0x01000000 with fb := [(0, 5), (23, 4095)], regs := { Regs.zero with r := 9 } })
      (fun t => (t.fb, t.regs.r)) = some ([], 9) := by decide

/-- R141: channel 7, blue, bit 11, and no pin changes. -/
theorem test_xmit :
    take 0x02000000 (fun t => (t.ser, t.stat.busy, t.trace)) =
      some (⟨.shift, 7, .blue, 11, 0⟩, true, [⟨false, false, false, false⟩]) := by decide

/-- Program P4. -/
theorem test_setb : take 0x10031000 (tuple 3) = some (4095, 0, 0) ∧
    take 0x10047FFF (fun t => t.fb) = some [(12, 4095)] := by decide

/-- Section 2.2 and program P4. -/
theorem test_setr : take 0x11020064 (tuple 2) = some (0, 100, 0) ∧
    take 0x1103FFFB (fun t => t.fb) = some [] := by decide

/-- Program P4 and section 2.1. -/
theorem test_setg : take 0x12031388 (tuple 3) = some (0, 0, 4095) ∧
    take 0x12FF0000 record = some (true, 2, 0x12FF0000) := by decide

/-- Section 2.2. -/
theorem test_putpx :
    after (exec (.putpx 5) (withRegs { Regs.zero with r := 2408, g := 2699, b := 462 })) (tuple 5) =
      some (462, 2408, 2699) := by decide

/-- Section 2.2. -/
theorem test_getpx :
    after (exec (.getpx 5) { State.reset with fb := [(15, 462), (16, 2408), (17, 2699)] })
      (fun t => (t.regs.r, t.regs.g, t.regs.b)) = some (2408, 2699, 462) := by decide

/-- Section 2.4. -/
theorem test_ldh : take 0x20FFFFFF (·.regs.h) = some 65535 ∧ take 0x20018000 (·.regs.h) = some 32768 := by decide

theorem test_ldha : take 0x237FFFFF (·.regs.ha) = some 65535 ∧ take 0x23010000 (·.regs.ha) = some 0 := by decide

theorem test_ldhb : take 0x24FF8000 (·.regs.hb) = some 32768 ∧ take 0x24800000 (·.regs.hb) = some 0 := by decide

theorem test_lds : take 0x21FFFFFF (·.regs.s) = some 0 ∧ take 0x21010000 (·.regs.s) = some 65536 := by decide

theorem test_ldv : take 0x227FFFFF (·.regs.v) = some 65536 ∧ take 0x22800000 (·.regs.v) = some 0 := by decide

theorem test_ldf : take 0x25010001 (·.regs.fr) = some 65536 ∧ take 0x2500FFFF (·.regs.fr) = some 65535 := by decide

/-- Section 2.5.1. -/
theorem test_hsv2rgb :
    after (exec .hsv2rgb (withRegs { Regs.zero with h := 12345, s := 54321, v := 43210 }))
      (fun t => (t.regs.r, t.regs.g, t.regs.b)) = some (2408, 2699, 462) ∧
    after (exec .hsv2rgb (withRegs { Regs.zero with h := 54614, s := 32768, v := 65536 }))
      (fun t => (t.regs.r, t.regs.g, t.regs.b)) = some (4095, 2047, 4094) := by decide

/-- Section 2.5.2: the wrap path in the falling direction, and the boundary of `Cross`. -/
theorem test_hlerp :
    after (exec .hlerp (withRegs { Regs.zero with ha := 3276, hb := 62259, fr := 1 }))
      (fun t => (t.regs.h, t.stat.wrap)) = some (3275, true) ∧
    after (exec .hlerp (withRegs { Regs.zero with ha := 10878, hb := 32767, fr := 49152 }))
      (fun t => (t.regs.h, t.stat.wrap)) = some (27294, false) := by decide

/-- Section 2.5.3: a negative numerator, and a tie of red and blue. -/
theorem test_rgb2hsv :
    after (exec .rgb2hsv (withRegs { Regs.zero with r := 4095, g := 0, b := 1 }))
      (fun t => (t.regs.dh, t.regs.ds, t.regs.dv, t.stat.dhv)) = some (65533, 65536, 65536, true) ∧
    after (exec .rgb2hsv (withRegs { Regs.zero with r := 1, g := 0, b := 1 }))
      (fun t => (t.regs.dh, t.regs.ds, t.regs.dv, t.stat.dhv)) = some (54613, 65536, 16, true) := by decide

/-- Section 2.1: the first error only. -/
theorem test_error_record :
    take 0x7F000000 record = some (true, 1, 0x7F000000) ∧
    after (step { offering 0x14080000 with stat := { Status.zero with err := true, errcode := 1, errinfo := 0x7F000000 } })
      record = some (true, 1, 0x7F000000) := by decide

/-! ### The link -/

/-- One channel, `FB[0] = (0xABC, 0x123, 0x801)`, the serialiser at `p` and the pins at `q` (section 2.3, third row). -/
def sending (p : Serialiser) (q : Pins) : State :=
  { State.powerOn { Config.default with nch := 1 } 5 with
    fb := [(0, 0xABC), (1, 0x123), (2, 0x801)], ser := p, pins := q, trace := [Pins.low, q],
    stat := { Status.zero with busy := true }, chain := { sr := 5, vis := none, oe := !q.blank } }

/-- At the first bit: data phase, clock rise, clock fall. -/
def atData : State := sending ⟨.shift, 0, .blue, 11, 0⟩ ⟨false, false, false, false⟩
def atRise : State := sending ⟨.shift, 0, .blue, 11, 1⟩ ⟨true, false, false, false⟩
def atFall : State := sending ⟨.shift, 0, .blue, 11, 2⟩ ⟨true, true, false, false⟩

/-- At the last bit's clock fall, and at the two phases of the strobe. -/
def atLastFall : State := sending ⟨.shift, 0, .green, 0, 2⟩ ⟨true, true, false, false⟩
def atStrobe : State := sending ⟨.strobe, 0, .blue, 0, 0⟩ ⟨true, false, false, false⟩
def atRelease : State := sending ⟨.strobe, 0, .blue, 0, 1⟩ ⟨true, false, true, true⟩

/-- Section 2.3: the trace gained starts (1,0,0,0) (1,1,0,0) (1,0,0,0), and the observer shifts on the rise. -/
theorem test_shift_pins :
    after (step atData) (·.pins) = some ⟨true, false, false, false⟩ ∧
    after (step atRise) (fun t => (t.pins, t.chain.sr)) = some (⟨true, true, false, false⟩, 11) ∧
    after (step atFall) (fun t => (t.pins, t.ser.bit)) = some (⟨true, false, false, false⟩, 10) := by decide

/-- Section 2.3: it ends (1,0,1,1) (1,0,0,0); the frame is latched in the first of the two. -/
theorem test_strobe_pins :
    after (step atLastFall) (·.ser) = some ⟨.strobe, 0, .blue, 0, 0⟩ ∧
    after (step atStrobe) (fun t => (t.pins, t.chain.vis, t.chain.oe)) = some (⟨true, false, true, true⟩, some 5, false) ∧
    after (step atRelease) (fun t => (t.pins, t.stat.busy, t.ser.mode, t.chain.oe)) =
      some (⟨true, false, false, false⟩, false, .idle, true) := by decide

/-- Section 2.3, third row: the frame bits, most significant first. -/
theorem test_frame_bits :
    (frameBits atData).foldl (fun n b => 2 * n + b.toNat) 0 = 0xABC123801 ∧ (frameBits atData).length = 36 := by decide

/-- Section 2.3, fourth row: the cells of the latched frame. -/
theorem test_cell_of :
    cellOf 0xF000F000F001002003 0 .blue = 1 ∧ cellOf 0xF000F000F001002003 0 .green = 3 ∧
    cellOf 0xF000F000F001002003 1 .blue = 0xF00 ∧ cellOf 0xF000F000F001002003 1 .green = 0x00F := by decide

/-- Section 2.3, reset in mid-transmission. -/
theorem test_reset_in_transmission :
    after (step { atFall with host := { offered := [], resetPin := false, resetIn := [true] } })
      (fun t => (t.trace, t.fb, t.stat.busy, t.ser.mode, t.chain.sr)) =
      some ([⟨false, false, false, false⟩, ⟨true, true, false, false⟩, ⟨false, false, false, false⟩], [], false, .idle, 5)
    := by decide

/-- R263, R252: a `SHIFT` micro-step holds its levels for `T_PHASE` and the asserted strobe for `T_STROBE`, and levels that
`RESET` cuts short, or a step in which it is asserted, count for nothing. -/
theorem test_hold_floor :
    holdFloor atFall = Config.tPhase ∧ holdFloor atStrobe = Config.tStrobe ∧ holdFloor atRelease = 0 ∧
    (∀ l ∈ [[true], [false, true]],
      holdFloor { atStrobe with host := { offered := [], resetPin := false, resetIn := l } } = 0) := by
  simp [holdFloor, holdsItsLevels, atFall, atStrobe, atRelease, sending, State.powerOn, State.resetLevel,
    State.sampleReset]

/-! ### The read port and the assembler -/

/-- Section 2.7, after program P3. -/
def afterP3 : State :=
  { State.reset with
    fb := [(7, 2047), (10, 2047)]
    regs := ⟨65535, 65536, 32768, 62259, 3276, 32768, 2047, 0, 0, 0, 65536, 32759⟩
    stat := { Status.zero with wrap := true, dhv := true } }

theorem test_read_port :
    readPort 0x000 afterP3 = 0xC ∧ readPort 0x003 afterP3 = 0x00010008 ∧ readPort 0x004 afterP3 = 0x2A7E ∧
    readPort 0x010 afterP3 = 0xFFFF ∧ readPort 0x011 afterP3 = 0x10000 ∧ readPort 0x015 afterP3 = 0x8000 ∧
    readPort 0x018 afterP3 = 0x7FF ∧ readPort 0x01E afterP3 = 0x7FF7 ∧ readPort 0x409 afterP3 = 0x7FF ∧
    readPort 0x40B afterP3 = 0 ∧ readPort 0x40D afterP3 = 0x7FF ∧ readPort 0x420 afterP3 = 0 ∧
    readPort 0x006 afterP3 = 0 ∧ readPort 0xFFF afterP3 = 0 := by decide

/-- R105 and program P3: `q(0.95)` is 62259, `q(-0.5)` is 0xFF8000; what does not fit is no literal. -/
theorem test_literals :
    (Literal.frac 95 2).immediate 24 = some 0x00F333 ∧ (Literal.frac (-5) 1).immediate 24 = some 0xFF8000 ∧
    (Literal.dec (-5)).immediate 16 = some 0xFFFB ∧ (Literal.dec 32768).immediate 16 = none ∧
    (Literal.dec 256).channel = none := by decide

/-- The model's own choice, log 14. -/
theorem test_frac_positions :
    (Literal.frac 0 0).channel = none ∧ (Literal.frac 5 1).immediate 16 = none ∧
    (Literal.frac 128 0).immediate 24 = none := by decide

/-- Program P6's first line in both spellings: operands in red, green, blue order. -/
theorem test_setpx_expands :
    (Pseudo.expand 2 (.setpx 0 2 3 1)).map encode = [0x10000001, 0x11000002, 0x12000003] := by decide

theorem test_assemble_line :
    assemble 8 [("SETR", [.dec 3, .dec (-5)]), ("PUTPX", [.dec 8]), ("LDF", [.frac 5 1])] =
      some [0x1103FFFB, 0x14080000, 0x25008000] := by decide

/-- R104 and R105: program P3's second and third line as text, with their comment and blanks. -/
theorem test_read_line :
    readLine ['L', 'D', 'H', 'B', ' ', 'q', '(', '0', '.', '0', '5', ')', ' ', ';', ' ', 'x'] =
      some (['L', 'D', 'H', 'B'], [.frac 5 2]) ∧
    readLine ['S', 'E', 'T', 'R', ' ', '3', ',', ' ', '-', '5'] = some (['S', 'E', 'T', 'R'], [.dec 3, .dec (-5)]) ∧
    readLine ['L', 'D', 'H', ' ', '0', 'x', '2', 'A', 'A', 'B'] = some (['L', 'D', 'H'], [.hex 0x2AAB]) := by decide

theorem test_assemble_text :
    assembleText 8 [['X', 'M', 'I', 'T'], [' ', ';', ' ', 'x'], ['P', 'U', 'T', 'P', 'X', ' ', '3']] =
      some [0x02000000, 0x14030000] := by decide

/-! ### Witnesses: concrete states and operands that meet the hypotheses of the statements -/

theorem atData_inv : atData.Inv :=
  ⟨by decide, by decide, by decide, by decide, by decide, by decide, by decide, by decide, by decide, by decide⟩
theorem atRise_inv : atRise.Inv :=
  ⟨by decide, by decide, by decide, by decide, by decide, by decide, by decide, by decide, by decide, by decide⟩
theorem atFall_inv : atFall.Inv :=
  ⟨by decide, by decide, by decide, by decide, by decide, by decide, by decide, by decide, by decide, by decide⟩
theorem atStrobe_inv : atStrobe.Inv :=
  ⟨by decide, by decide, by decide, by decide, by decide, by decide, by decide, by decide, by decide, by decide⟩
theorem atRelease_inv : atRelease.Inv :=
  ⟨by decide, by decide, by decide, by decide, by decide, by decide, by decide, by decide, by decide, by decide⟩

/-- The fresh one-channel block with `XMIT` and then `CLEAR` offered. -/
def starting : State := (State.powerOn { Config.default with nch := 1 } 5).offer [0x02000000, 0x01000000]

theorem starting_inv : starting.Inv :=
  ⟨by decide, by decide, by decide, by decide, by decide, by decide, by decide, by decide, by decide, by decide⟩

/-- `RESET` asserted anew, and held. -/
def resetAsserted : State := { atFall with host := { offered := [0], resetPin := false, resetIn := [true, true] } }
def resetHeld : State := { State.reset with host := { offered := [0], resetPin := true, resetIn := [true] } }

/-- The fresh block with the anchors `ha`, `hb` and the progress `fr`. -/
def anchors (ha hb : Hue) (fr : UnitVal) : State := withRegs { Regs.zero with ha := ha, hb := hb, fr := fr }

theorem witness_EncodedCommandDecodesToItself : (Instr.setb 7 0xFFFF).wf 8 = true := by decide

theorem witness_DecodedWordIsTheEncoding : decode 0x1500FF00 = .rejected .reservedField ∧
    decode 0x15FF0000 = .command (.getpx 255) := by decide

theorem witness_OpcodeMapSelectsByMaskAndMatch : ∃ row ∈ opcodeMap, row.name = "PUTPX" ∧
    (0x14FF0000 : Word) &&& row.mask = row.value ∧ ¬(0x14FF0001 : Word) &&& row.mask = row.value :=
  ⟨⟨"PUTPX", 0xFF00FFFF, 0x14000000⟩, by decide⟩

/-- One word for each of the three clauses, at the ends of the fields. -/
theorem witness_OperandFieldsAreReadAtTheirBits :
    decode 0x12FF8001 = .command (.setg 255 0x8001) ∧ (Instr.setg 255 0x8001).channel = some 255 ∧
    imm16In (.setg 255 0x8001) = some 0x8001 ∧ decode 0x25FF0001 = .command (.ldf 0xFF0001) ∧
    imm24In (.ldf 0xFF0001) = some 0xFF0001 := by decide

/-- The four classes: the opcodes next to the legal ones, every kind of reserved bit, the first missing channel and the
last, good words at the ends of their fields. -/
theorem witness_EveryOfferedWordHasItsOutcome :
    (∀ w : Word, Offers (offering w) w []) ∧
    [0x03000000, 0x0F000000, 0x13000000, 0x16000000, 0x26000000, 0x33000000, 0xFF000000].all
      (fun w => decide (opN w ∉ ops)) = true ∧
    [0x00000001, 0x32800000, 0x14080001, 0x15008000].all (fun w => decide (ReservedBad w)) = true ∧
    [0x10080000, 0x12FFFFFF, 0x14080000].all
      (fun w => decide (¬ReservedBad w ∧ opN w ∈ opsC ++ opsCI ∧ State.reset.build.nch ≤ chN w)) = true ∧
    [0x00000000, 0x1007FFFF, 0x15070000, 0x20FF0000, 0x32000000].all
      (fun w => decide (opN w ∈ ops ∧ ¬ReservedBad w ∧ (opN w ∈ opsC ++ opsCI → chN w < State.reset.build.nch))) = true :=
  ⟨fun _ => ⟨rfl, rfl, rfl⟩, by decide, by decide, by decide, by decide⟩

theorem witness_ErrorRecordIsStickyUntilReset :
    (∃ s t, step s = .next t ∧ s.resetLevel = false ∧ s.stat.err = true) ∧
    ∃ s t, step s = .next t ∧ s.resetLevel = true :=
  ⟨⟨{ offering 0x7F000000 with stat := { Status.zero with err := true, errcode := 2, errinfo := 0x14080000 } }, _, rfl,
    rfl, rfl⟩, ⟨resetAsserted, _, rfl, rfl⟩⟩

theorem witness_CommandOnMissingChannelOnlyRecords :
    (Instr.putpx 8).channel = some 8 ∧ State.reset.build.nch ≤ (8 : BitVec 8).toNat := by decide

theorem witness_StepRunsTheDecodedCommand : Offers (offering 0x10070FFF) 0x10070FFF [] ∧
    decode 0x10070FFF = .command (.setb 7 0x0FFF) := by decide

theorem witness_BusyHoldsOfferedWordsAndTheFrame :
    ∃ s t, s.resetLevel = false ∧ s.stat.busy = true ∧ step s = .next t ∧ s.host.offered = [0x01000000] :=
  ⟨atFall.offer [0x01000000], _, rfl, rfl, rfl, rfl⟩

theorem witness_HostPauseChangesNothing :
    State.reset.resetLevel = false ∧ State.reset.stat.busy = false ∧ State.reset.host.offered = [] := by decide

theorem witness_ResetAssertionTakesResetValues :
    resetAsserted.resetLevel = true ∧ resetAsserted.host.resetPin = false := by decide

theorem witness_HeldResetChangesNothing :
    resetHeld.resetLevel = true ∧ resetHeld.host.resetPin = true ∧ resetHeld.HeldOk := by decide

/-- A buffer that is not zero, and the premises of the last clause and of the rejection. -/
theorem witness_ClearZeroesEveryCell :
    0 < atData.build.nch ∧ atData.cell 0 .blue = 0xABC ∧ 3 * atData.build.nch ≤ 3 ∧
    State.reset.fb.wf = true ∧ (∀ c k, c < State.reset.build.nch → State.reset.cell c k = 0) ∧
    opN 0x01000001 = 0x01 ∧ low24 0x01000001 ≠ 0 :=
  ⟨by decide, by decide, by decide, by decide, fun _ _ _ => rfl, by decide, by decide⟩

/-- The last channel, the first missing one, and the ends of the operand's three ranges. -/
theorem witness_SetStoresTheClampedComponent :
    atData.fb.wf = true ∧ (7 : BitVec 8).toNat < State.reset.build.nch ∧ opN 0x10080000 = 0x10 ∧
    State.reset.build.nch ≤ chN 0x10080000 ∧
    [0x0000, 0x0FFF, 0x1000, 0x7FFF, 0x8000, 0xFFFF].map storedValue = [0, 4095, 4095, 4095, 0, 0] := by decide

theorem witness_PutpxWritesEachColourToItsCell :
    afterP3.fb.wf = true ∧ (7 : BitVec 8).toNat < afterP3.build.nch ∧ (opN 0x14000001 = 0x14 ∧ low16 0x14000001 ≠ 0) ∧
    (opN 0x14080000 = 0x14 ∧ low16 0x14080000 = 0 ∧ afterP3.build.nch ≤ chN 0x14080000) := by decide

theorem witness_GetpxReadsEachColourFromItsCell :
    (7 : BitVec 8).toNat < afterP3.build.nch ∧ (opN 0x15008000 = 0x15 ∧ low16 0x15008000 ≠ 0) ∧
    (opN 0x15FF0000 = 0x15 ∧ low16 0x15FF0000 = 0 ∧ afterP3.build.nch ≤ chN 0x15FF0000) := by decide

theorem witness_GetThenPutCopiesAChannel :
    afterP3.fb.wf = true ∧ (2 : BitVec 8).toNat < afterP3.build.nch ∧ (7 : BitVec 8).toNat < afterP3.build.nch := by decide

theorem witness_PutallWritesEveryChannel : afterP3.build.Legal ∧ afterP3.fb.wf = true := by decide

/-- The ends of the operand's three ranges (section 2.4). -/
theorem witness_UnitLoadsClipToUnitInterval :
    [0x000000, 0x010000, 0x010001, 0x7FFFFF, 0x800000, 0xFFFFFF].map clippedValue = [0, 65536, 65536, 65536, 0, 0] := by
  decide

theorem witness_Hsv2rgbIsTheFloorOfTheExactConversion : afterP3.regs.s.toNat ≤ 65536 ∧ afterP3.regs.v.toNat ≤ 65536 := by
  decide

theorem witness_HsvTermsAreOrderedAndInRange :
    (0 : ℤ) ≤ 65536 ∧ (65536 : ℤ) ≤ 65536 ∧ (0 : ℤ) ≤ 65535 ∧ (65535 : ℤ) < 65536 := by decide

theorem witness_Hsv2rgbGreyBlackAndBrightnessBound :
    ∃ r : Regs, r.s.toNat ≤ 65536 ∧ r.v.toNat ≤ 65536 ∧ r.s = 0 ∧ r.v = 0 := ⟨Regs.zero, by decide⟩

/-- No crossing, and a crossing in each direction, the bounds of the band themselves among them; the rejection. -/
theorem witness_HlerpInterpolatesAlongTheChosenPath :
    State.reset.build.Legal ∧ ¬Crossing (anchors 10879 32768 0) ∧ ¬Crossing (anchors 10878 32767 0) ∧
    (Crossing (anchors 10878 32768 0) ∧ (anchors 10878 32768 0).regs.ha.toNat < (anchors 10878 32768 0).regs.hb.toNat) ∧
    (Crossing (anchors 65535 0 0) ∧ (anchors 65535 0 0).regs.hb.toNat < (anchors 65535 0 0).regs.ha.toNat) ∧
    opN 0x31000001 = 0x31 ∧ low24 0x31000001 ≠ 0 := by decide

theorem witness_HlerpReachesItsAnchors :
    (anchors 1 2 0).build.Legal ∧ (anchors 1 2 0).regs.fr = 0 ∧ (anchors 1 65535 65536).regs.fr = 65536 ∧
    (anchors 9 9 77).regs.ha = (anchors 9 9 77).regs.hb := by decide

theorem witness_HlerpWrapPathAvoidsTheBand :
    (anchors 10878 32768 65536).build.Legal ∧ (anchors 10878 32768 65536).regs.fr.toNat ≤ 65536 ∧
    Crossing (anchors 10878 32768 65536) := by decide

/-- Both directions of the direct path. -/
theorem witness_HlerpDirectPathIsMonotone :
    ((anchors 3276 8000 1).regs.fr.toNat ≤ (65536 : UnitVal).toNat ∧ (65536 : UnitVal).toNat ≤ 65536 ∧
      ¬Crossing (anchors 3276 8000 1) ∧ (anchors 3276 8000 1).regs.ha.toNat ≤ (anchors 3276 8000 1).regs.hb.toNat) ∧
    ((anchors 60000 40000 5).regs.fr.toNat ≤ (5 : UnitVal).toNat ∧ ¬Crossing (anchors 60000 40000 5) ∧
      (anchors 60000 40000 5).regs.hb.toNat ≤ (anchors 60000 40000 5).regs.ha.toNat) := by decide

/-- The clauses of the result: a maximum of 0, grey, and a maximum in red, in green and in blue; the rejection. -/
theorem witness_Rgb2hsvComputesItsFormulas :
    (maxOf 0 0 0 = 0 ∧ maxOf 0 0 0 - minOf 0 0 0 = 0) ∧ (maxOf 7 7 7 ≠ 0 ∧ maxOf 7 7 7 - minOf 7 7 7 = 0) ∧
    (maxOf 4095 0 1 = 4095 ∧ maxOf 4095 0 1 - minOf 4095 0 1 ≠ 0) ∧ maxOf 0 4095 4095 ≠ 0 ∧ maxOf 1 2 3 = 3 ∧
    opN 0x32000001 = 0x32 ∧ low24 0x32000001 ≠ 0 := by decide

theorem witness_RoundTripNeverExceedsTheValue :
    ∃ r : Regs, r.s.toNat ≤ 65536 ∧ r.v.toNat ≤ 65536 ∧ r.v = 65536 := ⟨{ Regs.zero with s := 65536, v := 65536 }, by decide⟩

theorem witness_NopChangesNothing : opN 0x00800000 = 0x00 ∧ low24 0x00800000 ≠ 0 := by decide

/-- Every clause has a command that does change what it names. -/
theorem witness_EachRegisterHasItsWriters :
    after (exec (.setb 0 1) State.reset) (fun t => decide (t.fb ≠ State.reset.fb)) = some true ∧
    after (exec .hlerp (anchors 5 5 0)) (fun t => decide (t.regs.h ≠ 0)) = some true ∧
    after (exec (.ldh 1) State.reset) (fun t => decide (t.regs.h ≠ 0)) = some true ∧
    after (exec (.lds 1) State.reset) (fun t => decide (t.regs.s ≠ 0)) = some true ∧
    after (exec (.ldv 1) State.reset) (fun t => decide (t.regs.v ≠ 0)) = some true ∧
    after (exec (.ldha 1) State.reset) (fun t => decide (t.regs.ha ≠ 0)) = some true ∧
    after (exec (.ldhb 1) State.reset) (fun t => decide (t.regs.hb ≠ 0)) = some true ∧
    after (exec (.ldf 1) State.reset) (fun t => decide (t.regs.fr ≠ 0)) = some true ∧
    after (exec .hsv2rgb (withRegs { Regs.zero with v := 65536 })) (fun t => decide (t.regs.r ≠ 0)) = some true ∧
    after (exec (.getpx 0) atData) (fun t => decide (t.regs.b ≠ 0)) = some true ∧
    after (exec .rgb2hsv (withRegs { Regs.zero with b := 1 })) (fun t => decide (t.regs.dv ≠ 0 ∧ t.stat.dhv ≠ false)) =
      some true ∧
    after (exec .hlerp (anchors 0 65535 0)) (fun t => decide (t.stat.wrap ≠ false)) = some true ∧
    after (exec .xmit State.reset) (fun t => decide (t.stat.busy ≠ false ∧ t.ser ≠ Serialiser.idle)) = some true ∧
    after (exec (.putpx 8) State.reset) (fun t => decide (t.stat.err ≠ false)) = some true := by decide

theorem witness_XmitStartsAtTheLastChannel : opN 0x02000001 = 0x02 ∧ low24 0x02000001 ≠ 0 := by decide

theorem witness_ShiftMicroStepsPulseTheClock :
    (atData.Inv ∧ atData.resetLevel = false ∧ atData.ser.mode = .shift ∧ atData.ser.ph = 0) ∧
    (atRise.Inv ∧ atRise.resetLevel = false ∧ atRise.ser.mode = .shift ∧ atRise.ser.ph = 1) ∧
    (atFall.Inv ∧ atFall.resetLevel = false ∧ atFall.ser.mode = .shift ∧ atFall.ser.ph = 2) :=
  ⟨⟨atData_inv, rfl, rfl, rfl⟩, ⟨atRise_inv, rfl, rfl, rfl⟩, ⟨atFall_inv, rfl, rfl, rfl⟩⟩

theorem witness_StrobeMicroStepsLatchAndRelease :
    (atStrobe.Inv ∧ atStrobe.resetLevel = false ∧ atStrobe.ser.mode = .strobe ∧ atStrobe.ser.ph = 0) ∧
    (atRelease.Inv ∧ atRelease.resetLevel = false ∧ atRelease.ser.mode = .strobe ∧ atRelease.ser.ph = 1) :=
  ⟨⟨atStrobe_inv, rfl, rfl, rfl⟩, ⟨atRelease_inv, rfl, rfl, rfl⟩⟩

theorem witness_FrameBitsAreInTheSpecifiedOrder :
    [0, 11, 12, 35, 36, 287].all (· < 36 * State.reset.build.nch) = true := by decide

theorem witness_StartsFrame : StartsFrame starting [0x01000000] :=
  ⟨starting_inv, by decide, by decide, by decide, by decide⟩

theorem witness_TransmissionSendsExactlyTheFrame :
    StartsFrame starting [0x01000000] ∧ 109 < 108 * starting.build.nch + 2 := ⟨witness_StartsFrame, by decide⟩

theorem witness_TransmittedFrameIsDisplayedEndToEnd :
    StartsFrame starting [0x01000000] ∧ 0 < starting.build.nch ∧ 108 ≤ 108 * starting.build.nch :=
  ⟨witness_StartsFrame, by decide, by decide⟩

theorem witness_ChainHoldsTheFrameAfterItsBits :
    Pins.low.sclk = false ∧ 35 < atData.build.nbits ∧ 0 < atData.build.nch := by decide

theorem witness_DataIsStableOverClockAndLatch :
    ∃ s t, s.Inv ∧ s.resetLevel = false ∧ step s = .next t ∧ t.pins.sdata ≠ s.pins.sdata :=
  ⟨atData, _, atData_inv, rfl, rfl, by decide⟩

theorem witness_DisplayChangesOnlyAtTheLatchEdge :
    ∃ s t, s.Inv ∧ step s = .next t ∧ t.chain.vis ≠ s.chain.vis := ⟨atStrobe, _, atStrobe_inv, rfl, by decide⟩

theorem witness_HoldFloorsOfATransmissionAddUpToTheBound :
    ∃ t, StartsFrame starting [0x01000000] ∧ step starting = .next t := ⟨_, witness_StartsFrame, rfl⟩

theorem witness_ProgramEndsAfterItsStepCount : starting.Inv ∧ starting.Quiet ∧ starting.stat.busy = false ∧
    0 < starting.host.offered.length + starting.host.offered.count 0x02000000 * (108 * starting.build.nch + 2) :=
  ⟨starting_inv, by decide, by decide, by decide⟩

/-- A legal build, and addresses of each of the last three clauses at their ends. -/
theorem witness_ReadPortShowsEachRegister :
    afterP3.build.Legal ∧ 7 < afterP3.build.nch ∧ (0 < 256 ∧ 3 < 4 ∧ (3 = 3 ∨ afterP3.build.nch ≤ 0)) ∧
    (255 < 256 ∧ 0 < 4 ∧ afterP3.build.nch ≤ 255) ∧
    ((0x3FF : BitVec 12).toNat < 0x400 ∧ 0x800 ≤ (0x800 : BitVec 12).toNat ∧ (0x006 : BitVec 12).toNat = 6) := by decide

theorem witness_ResetStateMeetsTheInvariant :
    ({ Config.default with nch := 256 } : Config).Legal ∧ 1 < 2 ^ ({ Config.default with nch := 1 } : Config).nbits := by
  decide

theorem witness_EveryStepKeepsTheInvariant : ∃ s t, s.Inv ∧ step s = .next t := ⟨atStrobe, _, atStrobe_inv, rfl⟩

theorem witness_InvariantStatesNeverStop : atRelease.Inv := atRelease_inv

theorem witness_ChainFollowsTheTrace : ∃ s t, s.Observed ∧ step s = .next t :=
  ⟨starting, _, ⟨5, by decide⟩, rfl⟩

theorem witness_BuildIsFixedAndHistoryOnlyGrows :
    (∃ t, step atData = .next t ∧ t.trace = atData.trace ++ [t.pins]) ∧
    (∃ t, step starting = .next t ∧ t.trace = starting.trace ∧ t.pins = starting.pins) ∧
    ∃ t, step resetHeld = .next t ∧ t.trace = resetHeld.trace :=
  ⟨⟨_, rfl, by decide⟩, ⟨_, rfl, by decide, by decide⟩, ⟨_, rfl, by decide⟩⟩

end Sys2Proof.Tests
end

section
/-! PROOFS of the scope statements (spec/00_scope.md): commands, acceptance and invariant states always answer a next
state (R10), no command touches the link (R120, R141, R170, R185, R216), and a transmission in progress holds the
offered words and the frame (R33, R258). -/

namespace Sys2Proof.Machine

/-! ### Commands answer, and leave the link alone -/

/-- `t` shows the outside the same link as `s`: pins, history, chain, ports and build. -/
def State.SameLink (s t : State) : Prop :=
  t.pins = s.pins ∧ t.trace = s.trace ∧ t.chain = s.chain ∧ t.host = s.host ∧ t.build = s.build

theorem State.SameLink.refl (s : State) : s.SameLink s := ⟨rfl, rfl, rfl, rfl, rfl⟩

theorem State.SameLink.trans {s t u : State} (hst : s.SameLink t) (htu : t.SameLink u) : s.SameLink u := by
  obtain ⟨hp, ht, hc, hh, hb⟩ := hst
  obtain ⟨hp', ht', hc', hh', hb'⟩ := htu
  exact ⟨hp'.trans hp, ht'.trans ht, hc'.trans hc, hh'.trans hh, hb'.trans hb⟩

theorem writeCell_sameLink (c : Nat) (k : Component) (v : Level) (s : State) : s.SameLink (s.writeCell c k v) := by
  simp [State.SameLink]

theorem putChannel_sameLink (c : Nat) (s : State) : s.SameLink (putChannel c s) :=
  ((writeCell_sameLink ..).trans (writeCell_sameLink ..)).trans (writeCell_sameLink ..)

theorem getChannel_sameLink (c : Nat) (s : State) : s.SameLink (getChannel c s) := by
  simp [State.SameLink, getChannel]

theorem raiseCmdError_sameLink (c : Cause) (w : Word) (s : State) : s.SameLink (raiseCmdError c w s) := by
  rw [raiseCmdError_frame]
  simp [State.SameLink]

/-- A channel command whose effect leaves the link alone answers, on every channel, and leaves the link alone. -/
theorem onChannel_answers (i : Instr) (c : BitVec 8) {effect : State → State} {s : State}
    (he : s.SameLink (effect s)) : ∃ t, onChannel i c effect s = .next t ∧ s.SameLink t := by
  obtain ⟨-, h⟩ | ⟨-, h⟩ := onChannel_cases i c effect s
  · exact ⟨_, h, he⟩
  · exact ⟨_, h, raiseCmdError_sameLink ..⟩

/-- Every command answers a next state with the same link: the channel commands by their effect or their error, the
others because they write only the buffer, the registers, the flags or the serialiser. -/
theorem exec_answers (i : Instr) (s : State) : ∃ t, exec i s = .next t ∧ s.SameLink t := by
  cases i with
  | setb ch imm | setr ch imm | setg ch imm => exact onChannel_answers _ _ (writeCell_sameLink ..)
  | putpx ch => exact onChannel_answers _ _ (putChannel_sameLink ..)
  | getpx ch => exact onChannel_answers _ _ (getChannel_sameLink ..)
  | nop => exact ⟨_, rfl, State.SameLink.refl s⟩
  | clear | xmit | ldh imm | lds imm | ldv imm | ldha imm | ldhb imm | ldf imm | hsv2rgb | hlerp | rgb2hsv =>
    exact ⟨_, rfl, by simp [State.SameLink]⟩

/-! ### Steps answer -/

theorem acceptWord_answers (w : Word) (s : State) : ∃ t, acceptWord w s = .next t := by
  obtain ⟨i, -, h⟩ | ⟨c, -, h⟩ := acceptWord_cases w s
  · obtain ⟨t, ht, -⟩ := exec_answers i s
    exact ⟨t, h.trans ht⟩
  · exact ⟨_, h⟩

theorem sequencerStep_answers (s : State) : ∃ t, sequencerStep s = .next t := by
  unfold sequencerStep
  split
  · exact ⟨_, rfl⟩
  · exact acceptWord_answers ..

/-- A step can stop only in a micro-step, and a legal position that agrees with `BUSY` enables one. -/
theorem step_answers_of_legal {s : State} {n : Nat} (hl : s.ser.legal n = true) (hb : s.BusyOk) :
    ∃ t, step s = .next t := by
  cases hr : s.resetLevel with
  | true => exact ⟨_, step_of_reset hr⟩
  | false =>
    cases hbusy : s.stat.busy with
    | true =>
      rw [step_of_busy hr hbusy]
      exact microStep_of_legal (s := s.sampleReset false) hl (hb.mp hbusy)
    | false =>
      rw [step_of_ready hr hbusy]
      exact sequencerStep_answers _

/-! ### A micro-step leaves the ports and the frame alone -/

/-- Whichever rule a micro-step takes, it writes only the serialiser, the link and `BUSY` (R144 to R150). -/
theorem microStep_frame {s t : State} (h : microStep s = .next t) :
    t.host = s.host ∧ t.fb = s.fb ∧ t.regs = s.regs ∧ t.stat = { s.stat with busy := t.stat.busy } := by
  obtain ⟨-, -, rfl⟩ | ⟨-, -, rfl⟩ | ⟨-, -, rfl⟩ | ⟨-, -, rfl⟩ | ⟨-, -, rfl⟩ := microStep_cases h
  · simp [dataPhase]
  · simp [clockRise]
  · simp [clockFall]
  · simp [strobeAssert]
  · simp [strobeRelease]

end Sys2Proof.Machine

namespace Sys2Proof.Claims

open Sys2Proof.Machine

/-- Settles O33: `exec_answers`, one case for each command. -/
theorem everyCommandAnswersANextState : Obligations.EveryCommandAnswersANextState :=
  exec_answers

/-- Settles O50: in an invariant state the serialiser's position is legal and agrees with `BUSY`. -/
theorem invariantStatesNeverStop : Obligations.InvariantStatesNeverStop :=
  fun _ hinv => step_answers_of_legal hinv.ser hinv.busy

/-- Settles O10: a busy step is a micro-step, which writes none of these. -/
theorem busyHoldsOfferedWordsAndTheFrame : Obligations.BusyHoldsOfferedWordsAndTheFrame := by
  intro s t hr hb h
  rw [step_of_busy hr hb] at h
  obtain ⟨hhost, hfb, hregs, hstat⟩ := microStep_frame h
  exact ⟨by simp [hhost], hfb, hregs, hstat⟩

end Sys2Proof.Claims
end

section
/-! PROOFS of the state statements (spec/10_state.md): who writes which register (R22 to R25), reset (R41, R43), what
`TRACE` can gain (R40), and that reset meets the invariant and every step keeps it (R20 to R41, R152). -/

namespace Sys2Proof.Machine

/-! ### What commands write -/

/-- What a channel command answers: its effect, on a channel that exists, or its command error. -/
theorem onChannel_next {i : Instr} {c : BitVec 8} {effect : State → State} {s t : State}
    (h : onChannel i c effect s = .next t) :
    (c.toNat < s.build.nch ∧ t = effect s) ∨ t = raiseCmdError .badChannel (encode i) s := by
  obtain ⟨hc, h'⟩ | ⟨-, h'⟩ := onChannel_cases i c effect s
  · cases h'.symm.trans h
    exact .inl ⟨hc, rfl⟩
  · cases h'.symm.trans h
    exact .inr rfl

/-- What both the effect of a channel command and its command error leave true holds of its answer. -/
theorem of_onChannel {P : State → Prop} {i : Instr} {c : BitVec 8} {effect : State → State} {s t : State}
    (h : onChannel i c effect s = .next t) (heffect : c.toNat < s.build.nch → P (effect s))
    (herror : P (raiseCmdError .badChannel (encode i) s)) : P t := by
  obtain ⟨hc, rfl⟩ | rfl := onChannel_next h
  · exact heffect hc
  · exact herror

@[simp] theorem raiseCmdError_fb (c : Cause) (w : Word) (s : State) : (raiseCmdError c w s).fb = s.fb := by
  rw [raiseCmdError_frame]

@[simp] theorem raiseCmdError_regs (c : Cause) (w : Word) (s : State) : (raiseCmdError c w s).regs = s.regs := by
  rw [raiseCmdError_frame]

@[simp] theorem raiseCmdError_ser (c : Cause) (w : Word) (s : State) : (raiseCmdError c w s).ser = s.ser := by
  rw [raiseCmdError_frame]

@[simp] theorem raiseCmdError_wrap (c : Cause) (w : Word) (s : State) :
    (raiseCmdError c w s).stat.wrap = s.stat.wrap := by
  obtain ⟨-, h⟩ | ⟨-, h⟩ := raiseCmdError_cases c w s <;> rw [h]

@[simp] theorem raiseCmdError_dhv (c : Cause) (w : Word) (s : State) :
    (raiseCmdError c w s).stat.dhv = s.stat.dhv := by
  obtain ⟨-, h⟩ | ⟨-, h⟩ := raiseCmdError_cases c w s <;> rw [h]

/-- Only the first error since reset is recorded (R229). -/
theorem raiseCmdError_of_err {s : State} (h : s.stat.err = true) (c : Cause) (w : Word) : raiseCmdError c w s = s :=
  if_pos h

end Sys2Proof.Machine

namespace Sys2Proof.Claims

open Sys2Proof.Machine

/-- Settles O34, one case for each command; a channel command writes its target, or only the first error. -/
theorem eachRegisterHasItsWriters : Obligations.EachRegisterHasItsWriters := by
  intro i s t h
  cases i with
  | setb ch imm | setr ch imm | setg ch imm | putpx ch | getpx ch =>
    obtain ⟨-, rfl⟩ | rfl := onChannel_next h
    · simp [writesFb, putChannel, getChannel]
    · by_cases herr : s.stat.err = true
      · simp [raiseCmdError_of_err herr]
      · simp [hasChannel, Instr.channel, herr]
  | nop | clear | xmit | ldh imm | lds imm | ldv imm | ldha imm | ldhb imm | ldf imm | hsv2rgb | hlerp | rgb2hsv =>
    cases h
    simp [writesFb]

end Sys2Proof.Claims

namespace Sys2Proof.Machine

/-- No command but `XMIT` starts a transmission (R141). -/
theorem exec_keeps_ser_busy {i : Instr} {s t : State} (h : exec i s = .next t) (hx : i ≠ .xmit) :
    t.ser = s.ser ∧ t.stat.busy = s.stat.busy := by
  obtain ⟨-, -, -, -, -, -, -, -, -, -, -, hbusy, hser, -⟩ := Claims.eachRegisterHasItsWriters i s t h
  exact ⟨not_imp_comm.1 hser hx, not_imp_comm.1 hbusy hx⟩

theorem exec_sameLink {i : Instr} {s t : State} (h : exec i s = .next t) : s.SameLink t := by
  obtain ⟨u, hu, hlink⟩ := exec_answers i s
  cases hu.symm.trans h
  exact hlink

/-! ### Commands keep the buffer canonical, the registers in range and the error record sound -/

theorem writeCell_memoryOk {s : State} (hmem : s.MemoryOk) {c : Nat} (hc : c < s.build.nch) (k : Component)
    (v : Level) :
    (s.writeCell c k v).MemoryOk :=
  ⟨Memory.wf_write _ _ hmem.1, Memory.below_write v (cellAddr_lt.2 hc) hmem.2⟩

theorem raiseCmdError_memoryOk {s : State} (hmem : s.MemoryOk) (c : Cause) (w : Word) :
    (raiseCmdError c w s).MemoryOk := by
  rw [raiseCmdError_frame]
  exact hmem

theorem exec_memoryOk {i : Instr} {s t : State} (h : exec i s = .next t) (hmem : s.MemoryOk) : t.MemoryOk := by
  cases i with
  | setb ch imm | setr ch imm | setg ch imm =>
    exact of_onChannel h (fun hc => writeCell_memoryOk hmem hc ..) (raiseCmdError_memoryOk hmem ..)
  | putpx ch =>
    refine of_onChannel h (fun hc => ?_) (raiseCmdError_memoryOk hmem ..)
    exact writeCell_memoryOk (writeCell_memoryOk (writeCell_memoryOk hmem hc ..) hc ..) hc ..
  | getpx ch => exact of_onChannel h (fun _ => hmem) (raiseCmdError_memoryOk hmem ..)
  | clear =>
    cases h
    exact ⟨Memory.wf_clearBelow _ hmem.1, Memory.below_clearBelow hmem.2⟩
  | nop | xmit | ldh imm | lds imm | ldv imm | ldha imm | ldhb imm | ldf imm | hsv2rgb | hlerp | rgb2hsv =>
    cases h
    exact hmem

theorem unitVal_ofInt_le {x : Int} (h0 : 0 ≤ x) (h1 : x ≤ 65536) : (BitVec.ofInt 17 x).toNat ≤ 65536 := by
  rw [BitVec.toNat_ofInt]
  omega

/-- `DV` is a legal value for every maximum a component can have (R200). -/
theorem valueOf_le {mx : Int} (h0 : 0 ≤ mx) (h1 : mx ≤ 4095) : (valueOf mx).toNat ≤ 65536 :=
  unitVal_ofInt_le (by omega) (by omega)

/-- `DS` is a legal value when the spread is no more than the maximum (R200). -/
theorem saturationOf_le {mx dl : Int} (h0 : 0 ≤ dl) (h1 : dl ≤ mx) : (saturationOf mx dl).toNat ≤ 65536 := by
  unfold saturationOf
  split_ifs with hmx
  · decide
  · have hpos : 0 < mx := by omega
    exact unitVal_ofInt_le (Int.ediv_nonneg (by omega) hpos.le) (Int.ediv_le_of_le_mul hpos (by omega))

theorem rgb2hsv_regsOk {s t : State} (h : exec .rgb2hsv s = .next t) (hregs : s.RegsOk) : t.RegsOk := by
  obtain ⟨hs, hv, hfr, -, -⟩ := hregs
  have hr := s.regs.r.isLt
  have hg := s.regs.g.isLt
  have hb := s.regs.b.isLt
  cases h
  refine ⟨hs, hv, hfr, saturationOf_le ?_ ?_, valueOf_le ?_ ?_⟩ <;> simp only [maxOf, minOf] <;> omega

theorem raiseCmdError_regsOk {s : State} (hregs : s.RegsOk) (c : Cause) (w : Word) : (raiseCmdError c w s).RegsOk := by
  rw [raiseCmdError_frame]
  exact hregs

theorem exec_regsOk {i : Instr} {s t : State} (h : exec i s = .next t) (hregs : s.RegsOk) : t.RegsOk := by
  have ⟨hs, hv, hfr, hds, hdv⟩ := hregs
  cases i with
  | lds imm => cases h; exact ⟨unitOperand_le imm, hv, hfr, hds, hdv⟩
  | ldv imm => cases h; exact ⟨hs, unitOperand_le imm, hfr, hds, hdv⟩
  | ldf imm => cases h; exact ⟨hs, hv, unitOperand_le imm, hds, hdv⟩
  | rgb2hsv => exact rgb2hsv_regsOk h hregs
  | setb ch imm | setr ch imm | setg ch imm | putpx ch | getpx ch =>
    exact of_onChannel h (fun _ => hregs) (raiseCmdError_regsOk hregs ..)
  | nop | clear | xmit | ldh imm | ldha imm | ldhb imm | hsv2rgb | hlerp => cases h; exact hregs

theorem raiseCmdError_errOk {s : State} (herr : s.ErrOk) (c : Cause) (w : Word) : (raiseCmdError c w s).ErrOk := by
  obtain ⟨-, h⟩ | ⟨-, h⟩ := raiseCmdError_cases c w s
  · rwa [h]
  · rw [h]
    exact ⟨fun hne => by simp at hne, fun _ => causeCode_ne_zero c⟩

theorem exec_errOk {i : Instr} {s t : State} (h : exec i s = .next t) (herr : s.ErrOk) : t.ErrOk := by
  cases i with
  | setb ch imm | setr ch imm | setg ch imm | putpx ch | getpx ch =>
    exact of_onChannel h (fun _ => herr) (raiseCmdError_errOk herr ..)
  | nop | clear | xmit | ldh imm | lds imm | ldv imm | ldha imm | ldhb imm | ldf imm | hsv2rgb | hlerp | rgb2hsv =>
    cases h
    exact herr

/-! ### Serialiser positions and the pins that fit them -/

theorem Serialiser.legal_shift {p : Serialiser} {n : Nat} (hm : p.mode = .shift) :
    p.legal n = true ↔ p.ch < n ∧ p.bit ≤ 11 ∧ p.ph ≤ 2 := by
  simp [Serialiser.legal, hm]

theorem Serialiser.legal_strobe {p : Serialiser} {n : Nat} (hm : p.mode = .strobe) :
    p.legal n = true ↔ p.ch = 0 ∧ p.comp = .blue ∧ p.bit = 0 ∧ p.ph ≤ 1 := by
  simp [Serialiser.legal, hm]

theorem State.pinsOk_shift {s : State} (hm : s.ser.mode = .shift) :
    s.PinsOk ↔ s.pins.sclk = decide (s.ser.ph = 2) ∧ s.pins.latch = false ∧ s.pins.blank = false ∧
      (1 ≤ s.ser.ph → s.pins.sdata = positionBit s) := by
  grind

theorem State.pinsOk_strobe {s : State} (hm : s.ser.mode = .strobe) :
    s.PinsOk ↔ s.pins.sclk = false ∧ s.pins.latch = decide (s.ser.ph = 1) ∧ s.pins.blank = s.pins.latch ∧
      s.pins.sdata = (s.cell 0 .green).getLsbD 0 := by
  grind

theorem State.pinsOk_idle {s : State} (hm : s.ser.mode = .idle) :
    s.PinsOk ↔ s.pins.sclk = false ∧ s.pins.latch = false ∧ s.pins.blank = false := by
  grind

/-- Pins that fit a serialiser position are pins the link can show: the latch is up in `STROBE` only, the clock in
`SHIFT` only. -/
theorem State.PinsOk.ok {s : State} (h : s.PinsOk) : s.pins.Ok := by
  obtain ⟨hsclk, hlatch, hblank, -, -⟩ := h
  refine ⟨hblank.symm, fun hl => ?_⟩
  have hmode := (hlatch.1 hl).1
  simpa [hmode] using hsclk

/-! ### Commands and sequencer steps keep the invariant -/

section Ready

variable {s t : State} (hinv : s.Inv) (hbusy : s.stat.busy = false) (hrel : s.host.resetPin = false)
include hinv hbusy

theorem State.Inv.idle_of_ready : s.ser.mode = .idle := by
  by_contra hmode
  simp [hinv.busy.2 hmode] at hbusy

include hrel

/-- Between transmissions the pins, the history, the chain and the serialiser bind nothing of the frame: what leaves
them alone only has to keep the buffer, the registers and the error record sound. -/
theorem State.Inv.of_ready (hlink : s.SameLink t) (hser : t.ser = s.ser) (hb : t.stat.busy = s.stat.busy)
    (hmem : t.MemoryOk) (hregs : t.RegsOk) (herr : t.ErrOk) : t.Inv := by
  obtain ⟨hpins, htrace, hchain, hhost, hbuild⟩ := hlink
  have hidle := hinv.idle_of_ready hbusy
  exact
    { build := by simpa [State.BuildOk, hbuild] using hinv.build
      memory := hmem
      regs := hregs
      ser := by rw [hser, hbuild]; exact hinv.ser
      busy := by rw [State.BusyOk, hser, hb]; exact hinv.busy
      pins := by
        rw [State.pinsOk_idle (by rw [hser, hidle]), hpins]
        exact (State.pinsOk_idle hidle).1 hinv.pins
      trace := by rw [State.TraceOk, htrace, hpins]; exact hinv.trace
      err := herr
      chain := by rw [State.ChainOk, hchain, hbuild, hpins]; exact hinv.chain
      held := by simp [State.HeldOk, hhost, hrel] }

/-- `XMIT` puts the serialiser at a legal first position with the clock and the latch still low (R141). -/
theorem execXmit_inv (h : execXmit s = .next t) : t.Inv := by
  obtain ⟨hnch, -, -⟩ := hinv.build
  obtain ⟨hsclk, hlatch, hblank⟩ := (State.pinsOk_idle (hinv.idle_of_ready hbusy)).1 hinv.pins
  cases h
  exact
    { hinv with
      ser := Iff.mpr (Serialiser.legal_shift rfl) ⟨Nat.sub_lt hnch one_pos, le_rfl, Nat.zero_le _⟩
      busy := by simp [State.BusyOk, firstPosition]
      pins := Iff.mpr (State.pinsOk_shift rfl) ⟨hsclk, hlatch, hblank, by simp [firstPosition]⟩
      held := by simp [State.HeldOk, hrel] }

theorem exec_inv {i : Instr} (h : exec i s = .next t) : t.Inv := by
  by_cases hx : i = .xmit
  · subst hx
    exact execXmit_inv hinv hbusy hrel h
  · obtain ⟨hser, hb⟩ := exec_keeps_ser_busy h hx
    exact hinv.of_ready hbusy hrel (exec_sameLink h) hser hb (exec_memoryOk h hinv.memory) (exec_regsOk h hinv.regs)
      (exec_errOk h hinv.err)

theorem raiseCmdError_inv (c : Cause) (w : Word) : (raiseCmdError c w s).Inv :=
  hinv.of_ready hbusy hrel (raiseCmdError_sameLink ..) (raiseCmdError_ser ..) (raiseCmdError_busy ..)
    (raiseCmdError_memoryOk hinv.memory ..) (raiseCmdError_regsOk hinv.regs ..) (raiseCmdError_errOk hinv.err ..)

theorem acceptWord_inv {w : Word} (h : acceptWord w s = .next t) : t.Inv := by
  obtain ⟨i, -, h'⟩ | ⟨c, -, h'⟩ := acceptWord_cases w s
  · exact exec_inv hinv hbusy hrel (h'.symm.trans h)
  · cases h'.symm.trans h
    exact raiseCmdError_inv hinv hbusy hrel c w

end Ready

/-- The invariant reads nothing of the host's side but `RESET` in force. -/
theorem State.Inv.sampleReset {s : State} (hinv : s.Inv) : (s.sampleReset false).Inv :=
  { hinv with held := by simp [State.HeldOk] }

theorem State.Inv.takeOffered {s : State} (hinv : s.Inv) (hrel : s.host.resetPin = false) (ws : List Word) :
    (s.takeOffered ws).Inv :=
  { hinv with held := by simp [State.HeldOk, hrel] }

/-! ### Emitting keeps the history and the chain sound -/

theorem Pins.low_ok : Pins.low.Ok := by decide

theorem Chain.shift_lt {nbits sr : Nat} (h : sr < 2 ^ nbits) (prev cur : Pins) :
    Chain.shift nbits prev cur sr < 2 ^ nbits := by
  unfold Chain.shift
  split
  · exact Nat.mod_lt _ (Nat.two_pow_pos _)
  · exact h

theorem State.emit_traceOk {s : State} (hshown : ∀ p ∈ s.trace, p.Ok) (hpins : s.pins.Ok) : s.emit.TraceOk := by
  refine ⟨by simp, fun p hp => ?_⟩
  obtain hp | rfl : p ∈ s.trace ∨ p = s.pins := by simpa using hp
  · exact hshown p hp
  · exact hpins

theorem State.emit_chainOk {s : State} (hsr : s.chain.sr < 2 ^ s.build.nbits)
    (hvis : ∀ x ∈ s.chain.vis, x < 2 ^ s.build.nbits) : s.emit.ChainOk := by
  refine ⟨Chain.shift_lt hsr _ _, fun x hx => ?_, rfl⟩
  simp only [State.emit_chain, Chain.observe] at hx
  split at hx
  · cases hx
    exact Chain.shift_lt hsr _ _
  · exact hvis x hx

/-! ### Micro-steps keep the invariant -/

/-- From a legal position in `SHIFT` the next one is legal and at `PH = 0`: in `SHIFT` again, or in `STROBE` after the
last bit of the frame (R146). -/
theorem advance_legal {p : Serialiser} {n : Nat} (hm : p.mode = .shift) (hl : p.legal n = true) :
    (advance p).legal n = true ∧ (advance p).ph = 0 ∧
      ((advance p).mode = .shift ∨ (advance p).mode = .strobe ∧ p.ch = 0 ∧ p.comp = .green ∧ p.bit = 0) := by
  obtain ⟨hch, hbit, -⟩ := (Serialiser.legal_shift hm).1 hl
  obtain ⟨-, h⟩ | ⟨-, -, h⟩ | ⟨-, -, h⟩ | ⟨-, -, -, h⟩ | ⟨hzero, hgreen, hfirst, h⟩ := advance_cases p
  case inr.inr.inr.inr => simp [h, Serialiser.legal_strobe, hzero, hgreen, hfirst]
  all_goals
    rw [h]
    refine ⟨Iff.mpr (Serialiser.legal_shift hm) ?_, rfl, .inl hm⟩
    dsimp only
    omega

/-- `u` is `s` but for what a micro-step writes before it emits: the pins, the serialiser and `BUSY`. -/
def State.MovesLink (s u : State) : Prop :=
  u = { s with ser := u.ser, pins := u.pins, stat := { s.stat with busy := u.stat.busy } }

/-- Emitting keeps the invariant when the new pins fit the new position. -/
theorem State.Inv.emit_of_movesLink {s u : State} (hinv : s.Inv) (hrel : s.host.resetPin = false)
    (hmoves : s.MovesLink u) (hser : u.ser.legal s.build.nch = true) (hbusy : u.BusyOk) (hpins : u.PinsOk) :
    u.emit.Inv := by
  obtain ⟨-, hshown⟩ := hinv.trace
  obtain ⟨hsr, hvis, -⟩ := hinv.chain
  have hok := hpins.ok
  rw [hmoves] at hbusy hpins hok ⊢
  exact
    { hinv with
      ser := hser
      busy := hbusy
      pins := hpins
      trace := State.emit_traceOk hshown hok
      chain := State.emit_chainOk hsr hvis
      held := by simp [State.HeldOk, hrel] }

section Busy

variable {s : State} (hinv : s.Inv) (hrel : s.host.resetPin = false)
include hinv hrel

theorem dataPhase_inv (hm : s.ser.mode = .shift) (hph : s.ser.ph = 0) : (dataPhase s).Inv := by
  obtain ⟨hch, hbit, -⟩ := (Serialiser.legal_shift hm).1 hinv.ser
  obtain ⟨hsclk, hlatch, hblank, -⟩ := (State.pinsOk_shift hm).1 hinv.pins
  refine hinv.emit_of_movesLink hrel rfl ?_ hinv.busy ?_
  · exact Iff.mpr (Serialiser.legal_shift hm) ⟨hch, hbit, one_le_two⟩
  · exact Iff.mpr (State.pinsOk_shift hm) ⟨by simpa [hph] using hsclk, hlatch, hblank, fun _ => rfl⟩

theorem clockRise_inv (hm : s.ser.mode = .shift) (hph : s.ser.ph = 1) : (clockRise s).Inv := by
  obtain ⟨hch, hbit, -⟩ := (Serialiser.legal_shift hm).1 hinv.ser
  obtain ⟨-, hlatch, hblank, hdata⟩ := (State.pinsOk_shift hm).1 hinv.pins
  refine hinv.emit_of_movesLink hrel rfl ?_ hinv.busy ?_
  · exact Iff.mpr (Serialiser.legal_shift hm) ⟨hch, hbit, le_rfl⟩
  · exact Iff.mpr (State.pinsOk_shift hm) ⟨rfl, hlatch, hblank, fun _ => hdata hph.ge⟩

/-- After the last bit `SDATA` still shows it: bit 0 of the green cell of channel 0 (R146, R148). -/
theorem clockFall_inv (hm : s.ser.mode = .shift) (hph : s.ser.ph = 2) : (clockFall s).Inv := by
  obtain ⟨-, hlatch, hblank, hdata⟩ := (State.pinsOk_shift hm).1 hinv.pins
  have hbusy : s.stat.busy = true := hinv.busy.2 (by simp [hm])
  obtain ⟨hlegal, hzero, hshift | ⟨hstrobe, hch, hcomp, hbit⟩⟩ := advance_legal hm hinv.ser
  · refine hinv.emit_of_movesLink hrel rfl hlegal (by simp [State.BusyOk, hbusy, hshift]) ?_
    exact Iff.mpr (State.pinsOk_shift hshift) ⟨by simp [hzero], hlatch, hblank, by simp [hzero]⟩
  · refine hinv.emit_of_movesLink hrel rfl hlegal (by simp [State.BusyOk, hbusy, hstrobe]) ?_
    have hlast : positionBit s = (s.cell 0 .green).getLsbD 0 := by rw [positionBit, hch, hcomp, hbit]
    exact Iff.mpr (State.pinsOk_strobe hstrobe)
      ⟨rfl, by simp [hzero, hlatch], hblank.trans hlatch.symm, (hdata (by omega)).trans hlast⟩

theorem strobeAssert_inv (hm : s.ser.mode = .strobe) : (strobeAssert s).Inv := by
  obtain ⟨hch, hcomp, hbit, -⟩ := (Serialiser.legal_strobe hm).1 hinv.ser
  obtain ⟨hsclk, -, -, hdata⟩ := (State.pinsOk_strobe hm).1 hinv.pins
  refine hinv.emit_of_movesLink hrel rfl ?_ hinv.busy ?_
  · exact Iff.mpr (Serialiser.legal_strobe hm) ⟨hch, hcomp, hbit, le_rfl⟩
  · exact Iff.mpr (State.pinsOk_strobe hm) ⟨hsclk, rfl, rfl, hdata⟩

theorem strobeRelease_inv (hm : s.ser.mode = .strobe) : (strobeRelease s).Inv := by
  obtain ⟨hch, hcomp, hbit, -⟩ := (Serialiser.legal_strobe hm).1 hinv.ser
  obtain ⟨hsclk, -, -, -⟩ := (State.pinsOk_strobe hm).1 hinv.pins
  refine hinv.emit_of_movesLink hrel rfl ?_ ?_ (Iff.mpr (State.pinsOk_idle rfl) ⟨hsclk, rfl, rfl⟩)
  · simp [Serialiser.legal, Serialiser.idle, hch, hcomp, hbit]
  · simp [State.BusyOk]

theorem microStep_inv {t : State} (h : microStep s = .next t) : t.Inv := by
  obtain ⟨hm, hph, rfl⟩ | ⟨hm, hph, rfl⟩ | ⟨hm, hph, rfl⟩ | ⟨hm, -, rfl⟩ | ⟨hm, -, rfl⟩ := microStep_cases h
  · exact dataPhase_inv hinv hrel hm hph
  · exact clockRise_inv hinv hrel hm hph
  · exact clockFall_inv hinv hrel hm hph
  · exact strobeAssert_inv hinv hrel hm
  · exact strobeRelease_inv hinv hrel hm

end Busy

/-! ### Reset -/

/-- A block at its reset values meets the invariant, whatever its host does, if the history and the chain are sound. -/
theorem inv_of_blockReset {s : State} (hblock : blockReset s = s) (hbuild : s.BuildOk) (htrace : s.TraceOk)
    (hchain : s.ChainOk) : s.Inv := by
  have hfb : s.fb = [] := (congrArg State.fb hblock).symm
  have hregs : s.regs = Regs.zero := (congrArg State.regs hblock).symm
  have hstat : s.stat = Status.zero := (congrArg State.stat hblock).symm
  have hser : s.ser = Serialiser.idle := (congrArg State.ser hblock).symm
  have hpins : s.pins = Pins.low := (congrArg State.pins hblock).symm
  exact
    { build := hbuild
      memory := by simp [State.MemoryOk, hfb, Memory.below]
      regs := by simp [State.RegsOk, hregs, Regs.zero]
      ser := by rw [hser]; rfl
      busy := by rw [State.BusyOk, hstat, hser]; decide
      pins := by rw [State.pinsOk_idle (by rw [hser]; rfl), hpins]; decide
      trace := htrace
      err := by rw [State.ErrOk, hstat]; decide
      chain := hchain
      held := fun _ => hblock }

/-- A held reset leaves the block as it is held; a new assertion emits the low pins. -/
theorem resetStep_inv {s : State} (hinv : s.Inv) : (resetStep s).Inv := by
  obtain ⟨hlast, hshown⟩ := hinv.trace
  obtain ⟨hsr, hvis, hoe⟩ := hinv.chain
  obtain ⟨hpin, h⟩ | ⟨-, h⟩ := resetStep_cases s
  · have hpins : Pins.low = s.pins := congrArg State.pins (hinv.held hpin)
    rw [h]
    exact inv_of_blockReset rfl hinv.build ⟨by simp [hlast, hpins], hshown⟩ ⟨hsr, hvis, by simp [hoe, ← hpins]⟩
  · rw [h]
    exact inv_of_blockReset rfl hinv.build (State.emit_traceOk hshown Pins.low_ok) (State.emit_chainOk hsr hvis)

theorem powerOn_inv {build : Config} {sr : Nat} (hbuild : build.Legal) (hsr : sr < 2 ^ build.nbits) :
    (State.powerOn build sr).Inv :=
  inv_of_blockReset rfl hbuild ⟨rfl, by simpa [State.powerOn] using Pins.low_ok⟩ ⟨hsr, by simp [State.powerOn], rfl⟩

/-! ### What a step appends to the history -/

theorem microStep_build_trace {s t : State} (h : microStep s = .next t) :
    t.build = s.build ∧ t.trace = s.trace ++ [t.pins] := by
  obtain ⟨-, -, rfl⟩ | ⟨-, -, rfl⟩ | ⟨-, -, rfl⟩ | ⟨-, -, rfl⟩ | ⟨-, -, rfl⟩ := microStep_cases h
  · simp [dataPhase]
  · simp [clockRise]
  · simp [clockFall]
  · simp [strobeAssert]
  · simp [strobeRelease]

theorem acceptWord_sameLink {w : Word} {s t : State} (h : acceptWord w s = .next t) : s.SameLink t := by
  obtain ⟨i, -, h'⟩ | ⟨c, -, h'⟩ := acceptWord_cases w s
  · exact exec_sameLink (h'.symm.trans h)
  · cases h'.symm.trans h
    exact raiseCmdError_sameLink ..

/-! ### The read port -/

theorem readWindow_of_fb_nil {s : State} (h : s.fb = []) (c k : Nat) : readWindow c k s = 0 := by
  unfold readWindow
  split
  · simp [State.cell, h, Memory.blank]
  · rfl

/-- Right after reset the read port shows 0 at every address but those of the three build words (R43, R65). -/
theorem readPort_reset_of_not_build {a : BitVec 12} (h3 : a ≠ 3) (h4 : a ≠ 4) (h5 : a ≠ 5) :
    readPort a State.reset = 0 := by
  unfold readPort
  split
  case h_4 hn => exact (h3 (BitVec.eq_of_toNat_eq hn)).elim
  case h_5 hn => exact (h4 (BitVec.eq_of_toNat_eq hn)).elim
  case h_6 hn => exact (h5 (BitVec.eq_of_toNat_eq hn)).elim
  case h_19 =>
    split
    · exact readWindow_of_fb_nil rfl _ _
    · rfl
  all_goals rfl

end Sys2Proof.Machine

namespace Sys2Proof.Claims

open Sys2Proof.Machine

/-- Settles O49: reset by `resetStep_inv`, a busy step by `microStep_inv`, an acceptance by `acceptWord_inv`; a host's
pause only samples `RESET`. -/
theorem everyStepKeepsTheInvariant : Obligations.EveryStepKeepsTheInvariant := by
  intro s t hinv h
  have hsampled : (s.sampleReset false).Inv := hinv.sampleReset
  obtain ⟨-, rfl⟩ | ⟨-, -, h⟩ | ⟨-, -, -, rfl⟩ | ⟨-, hbusy, w, ws, -, h⟩ := step_cases h
  · exact resetStep_inv hinv
  · exact microStep_inv hsampled rfl h
  · exact hsampled
  · exact acceptWord_inv (hsampled.takeOffered rfl ws) hbusy rfl h

/-- Settles O48: the block is at its reset values, and the trace is the entry of the reset. -/
theorem resetStateMeetsTheInvariant : Obligations.ResetStateMeetsTheInvariant :=
  ⟨powerOn_inv (by decide) (Nat.two_pow_pos _), fun _ _ => powerOn_inv⟩

/-- Settles O52: a micro-step and a new reset emit; an acceptance, a pause and a held reset leave the link alone, but
that the held reset holds the pins low. -/
theorem buildIsFixedAndHistoryOnlyGrows : Obligations.BuildIsFixedAndHistoryOnlyGrows := by
  intro s t h
  obtain ⟨-, rfl⟩ | ⟨-, -, h⟩ | ⟨-, -, -, rfl⟩ | ⟨-, -, w, ws, -, h⟩ := step_cases h
  · obtain ⟨hheld, h⟩ | ⟨-, h⟩ := resetStep_cases s
    · simp [h, hheld]
    · simp [h]
  · obtain ⟨hbuild, htrace⟩ := microStep_build_trace h
    exact ⟨hbuild, .inl htrace⟩
  · simp
  · obtain ⟨hpins, htrace, hchain, -, hbuild⟩ := acceptWord_sameLink h
    exact ⟨hbuild, .inr ⟨htrace, hchain, .inl hpins⟩⟩

/-- Settles O14: the registers read their zeros, the window reads the empty buffer, and only the three build words are
not 0. -/
theorem resetLeavesTheResetTable : Obligations.ResetLeavesTheResetTable := by
  refine ⟨fun a => ?_, rfl, rfl, rfl, rfl, rfl⟩
  split_ifs with h3 h4 h5
  · subst h3; rfl
  · subst h4; rfl
  · subst h5; rfl
  · exact readPort_reset_of_not_build h3 h4 h5

end Sys2Proof.Claims
end

section
/-! PROOFS of the memory statements (spec/20_memory.md): the read port shows every register and every cell at the
address of the map, and 0 elsewhere (R65, R66). -/

namespace Sys2Proof.Machine

/-! ### The words of the flags, the error record and the build as numbers -/

theorem flagBit_toNat (b : Bool) : (flagBit b).toNat = b.toNat := BitVec.toNat_ofBool b

/-- A field above another one counts in units of the lower one's size. -/
theorem append_toNat {m n : Nat} (x : BitVec m) (y : BitVec n) : (x ++ y).toNat = 2 ^ n * x.toNat + y.toNat := by
  rw [BitVec.toNat_append, ← Nat.shiftLeft_add_eq_or_of_lt y.isLt, Nat.shiftLeft_eq, Nat.mul_comm]

/-- Zeros above a field are its zero extension. -/
theorem zero_append_toNat {m n : Nat} (y : BitVec n) : ((0 : BitVec m) ++ y).toNat = y.toNat := by simp

/-- `STATUS` carries the four flags at bits 0 to 3 (R35). -/
theorem statusWord_toNat (s : State) : (statusWord s).toNat =
    s.stat.busy.toNat + 2 * s.stat.err.toNat + 4 * s.stat.wrap.toNat + 8 * s.stat.dhv.toNat := by
  simp only [statusWord, append_toNat, flagBit_toNat, BitVec.ofNat_eq_ofNat, BitVec.toNat_ofNat, Nat.zero_mod]
  omega

theorem errcodeWord_toNat (s : State) : (errcodeWord s).toNat = s.stat.errcode.toNat :=
  zero_append_toNat _

/-- A legal `NCH` fits its nine bits (R38). -/
theorem configWord_toNat {c : Config} (h : c.Legal) :
    (configWord c).toNat = c.nch + 65536 * c.bandEn.toNat := by
  obtain ⟨-, hnch, -⟩ := h
  simp only [configWord, append_toNat, flagBit_toNat, BitVec.ofNat_eq_ofNat, BitVec.toNat_ofNat, Nat.zero_mod]
  omega

theorem bandLoWord_toNat (c : Config) : (bandLoWord c).toNat = c.bandLo.toNat :=
  zero_append_toNat _

theorem bandHiWord_toNat (c : Config) : (bandHiWord c).toNat = c.bandHi.toNat :=
  zero_append_toNat _

/-! ### The window of the frame buffer -/

theorem readWindow_of_lt {s : State} {c : Nat} (hc : c < s.build.nch) (k : Component) :
    readWindow c k.index s = (s.cell c k).setWidth 32 := by
  simp [readWindow, hc]

/-- Outside the cells of the build the window reads 0 (R66). -/
theorem readWindow_of_no_cell {s : State} {c k : Nat} (h : k = 3 ∨ s.build.nch ≤ c) : readWindow c k s = 0 := by
  unfold readWindow
  split
  next comp hk =>
    obtain rfl | hc := h
    · cases hk
    · exact if_neg hc.not_gt
  next => rfl

/-- No register stands in the window: every address of it is a cell's (R65). -/
theorem readPort_of_window {a : BitVec 12} (hlo : 0x400 ≤ a.toNat) (hhi : a.toNat < 0x800) (s : State) :
    readPort a s = readWindow ((a.toNat - 0x400) / 4) ((a.toNat - 0x400) % 4) s := by
  unfold readPort
  split
  case h_19 => exact if_pos ⟨hlo, hhi⟩
  all_goals omega

/-- The window has four addresses a channel, for 256 channels (R65). -/
theorem readPort_windowAddr {c k : Nat} (hc : c < 256) (hk : k < 4) (s : State) :
    readPort (BitVec.ofNat 12 (0x400 + 4 * c + k)) s = readWindow c k s := by
  have haddr : (BitVec.ofNat 12 (0x400 + 4 * c + k)).toNat = 0x400 + 4 * c + k :=
    (BitVec.toNat_ofNat _ _).trans (Nat.mod_eq_of_lt (by omega))
  have hchannel : (0x400 + 4 * c + k - 0x400) / 4 = c := by omega
  have hcomponent : (0x400 + 4 * c + k - 0x400) % 4 = k := by omega
  rw [readPort_of_window (by omega) (by omega), haddr, hchannel, hcomponent]

theorem readPort_cell {s : State} (h : s.build.Legal) {c : Nat} (hc : c < s.build.nch) (k : Component) :
    (readPort (BitVec.ofNat 12 (0x400 + 4 * c + k.index)) s).toNat = (s.cell c k).toNat := by
  obtain ⟨-, hnch, -⟩ := h
  have hk := k.index_lt
  rw [readPort_windowAddr (by omega) (by omega), readWindow_of_lt hc]
  exact BitVec.toNat_setWidth_of_le (by decide)

/-! ### The addresses without a register -/

/-- The addresses of the registers in the read-port map (R65). -/
def registerAddrs : List Nat :=
  [0x000, 0x001, 0x002, 0x003, 0x004, 0x005, 0x010, 0x011, 0x012, 0x013, 0x014, 0x015, 0x018, 0x019, 0x01A, 0x01C,
    0x01D, 0x01E]

/-- An address outside the window with no register reads 0 (R66). -/
theorem readPort_unassigned {a : BitVec 12} (hout : a.toNat < 0x400 ∨ 0x800 ≤ a.toNat)
    (hreg : a.toNat ∉ registerAddrs) (s : State) : readPort a s = 0 := by
  have hwindow : ¬(0x400 ≤ a.toNat ∧ a.toNat < 0x800) := by omega
  unfold readPort
  split
  case h_19 => exact if_neg hwindow
  all_goals
    next haddr =>
      rw [haddr] at hreg
      exact (hreg (by decide)).elim

end Sys2Proof.Machine

namespace Sys2Proof.Claims

open Sys2Proof.Machine

/-- Settles O47: the flags and the build by the numbers of their words, the colour registers by zero extension, the
window by its addresses, and 0 at what is left. -/
theorem readPortShowsEachRegister : Obligations.ReadPortShowsEachRegister := by
  intro s hlegal
  refine ⟨statusWord_toNat s, errcodeWord_toNat s, rfl, configWord_toNat hlegal, bandLoWord_toNat _,
    bandHiWord_toNat _, ?h, ?s, ?v, ?ha, ?hb, ?fr, ?r, ?g, ?b, ?dh, ?ds, ?dv, fun _ k hc => readPort_cell hlegal hc k,
    fun c k hc hk hno => (readPort_windowAddr hc hk s).trans (readWindow_of_no_cell hno),
    fun _ hout hreg => readPort_unassigned hout hreg s⟩
  all_goals exact BitVec.toNat_setWidth_of_le (by decide)

end Sys2Proof.Claims
end

section
/-! PROOFS of the encoding statements (spec/30_encoding.md): decoding and encoding are inverse (R90, R98), the opcode
map and the operand fields (R92 to R98), the outcome of every offered word (R91, R100), and `PUTALL` (R106). -/

namespace Sys2Proof

/-! ### Decoding and encoding are inverse -/

/-- Each encoding carries the row's opcode and the format's fields, which `decode` reads back. -/
theorem decode_encode (i : Instr) : decode (encode i) = .command i := by
  cases i with
  | nop | clear | xmit | hsv2rgb | hlerp | rgb2hsv => simp [encode, decode, formatZ]
  | putpx ch | getpx ch => simp [encode, decode, formatC]
  | setb ch imm | setr ch imm | setg ch imm => simp [encode, decode, formatCI]
  | ldh imm | lds imm | ldv imm | ldha imm | ldhb imm | ldf imm => simp [encode, decode, formatI]

/-- Where the channel check of R100 (3) holds, the classification is the decoder's command. -/
theorem classify_of_wf {nch : Nat} {w : Word} {i : Instr} (h : decode w = .command i) (hwf : i.wf nch = true) :
    classify nch w = .command i := by
  simp [classify, h, hwf]

/-- A word is the one its format builds from its own fields (R92, R97). -/
theorem wordZ_of_fields {w : Word} {op : BitVec 8} (hop : (opOf w).toNat = op.toNat) (hzero : imm24Of w = 0) :
    wordZ op = w := by
  have hlow : (imm24Of w).toNat = 0 := by simp [hzero]
  rw [opOf_toNat] at hop
  rw [imm24Of_toNat] at hlow
  exact BitVec.eq_of_toNat_eq (by rw [wordZ_toNat]; omega)

theorem wordC_of_fields {w : Word} {op : BitVec 8} (hop : (opOf w).toNat = op.toNat) (hzero : imm16Of w = 0) :
    wordC op (chOf w) = w := by
  have hlow : (imm16Of w).toNat = 0 := by simp [hzero]
  rw [opOf_toNat] at hop
  rw [imm16Of_toNat] at hlow
  exact BitVec.eq_of_toNat_eq (by rw [wordC_toNat, chOf_toNat]; omega)

theorem wordCI_of_fields {w : Word} {op : BitVec 8} (hop : (opOf w).toNat = op.toNat) :
    wordCI op (chOf w) (imm16Of w) = w := by
  rw [opOf_toNat] at hop
  exact BitVec.eq_of_toNat_eq (by rw [wordCI_toNat, chOf_toNat, imm16Of_toNat]; omega)

theorem wordI_of_fields {w : Word} {op : BitVec 8} (hop : (opOf w).toNat = op.toNat) : wordI op (imm24Of w) = w := by
  rw [opOf_toNat] at hop
  exact BitVec.eq_of_toNat_eq (by rw [wordI_toNat, imm24Of_toNat]; omega)

/-- The word that decodes to a command has its opcode and, in its format, the fields the command carries. -/
theorem encode_of_decode {w : Word} {i : Instr} (h : decode w = .command i) : encode i = w := by
  obtain ⟨hzero, h⟩ | ⟨hzero, h⟩ | h | h := decode_command_cases h
  · obtain ⟨hop, rfl⟩ | ⟨hop, rfl⟩ | ⟨hop, rfl⟩ | ⟨hop, rfl⟩ | ⟨hop, rfl⟩ | ⟨hop, rfl⟩ := h <;>
      exact wordZ_of_fields hop hzero
  · obtain ⟨hop, rfl⟩ | ⟨hop, rfl⟩ := h <;> exact wordC_of_fields hop hzero
  · obtain ⟨hop, rfl⟩ | ⟨hop, rfl⟩ | ⟨hop, rfl⟩ := h <;> exact wordCI_of_fields hop
  · obtain ⟨hop, rfl⟩ | ⟨hop, rfl⟩ | ⟨hop, rfl⟩ | ⟨hop, rfl⟩ | ⟨hop, rfl⟩ | ⟨hop, rfl⟩ := h <;>
      exact wordI_of_fields hop

theorem decode_eq_command_iff {w : Word} {i : Instr} : decode w = .command i ↔ encode i = w :=
  ⟨encode_of_decode, fun h => h ▸ decode_encode i⟩

end Sys2Proof

namespace Sys2Proof.Claims

open Sys2Proof.Machine

/-- Settles O1: `decode_encode`, one case for each command; the channel check passes where the command is well
formed. -/
theorem encodedCommandDecodesToItself : Obligations.EncodedCommandDecodesToItself :=
  fun i => ⟨decode_encode i, fun _ hwf => classify_of_wf (decode_encode i) hwf⟩

/-- Settles O2: `encode_of_decode`, one case for each format. -/
theorem decodedWordIsTheEncoding : Obligations.DecodedWordIsTheEncoding :=
  fun _ _ => encode_of_decode

/-! ### Operand fields and the opcode map -/

theorem opN_eq (w : Word) : opN w = (opOf w).toNat := (opOf_toNat w).symm

theorem chN_eq (w : Word) : chN w = (chOf w).toNat := (chOf_toNat w).symm

theorem low16_eq (w : Word) : low16 w = (imm16Of w).toNat := (imm16Of_toNat w).symm

theorem low24_eq (w : Word) : low24 w = (imm24Of w).toNat := (imm24Of_toNat w).symm

/-- The encoder puts each operand in the field of its format (R92). -/
theorem fields_encode (i : Instr) :
    (∀ c ∈ i.channel, chOf (encode i) = c) ∧ (∀ x ∈ imm16In i, imm16Of (encode i) = x) ∧
      ∀ x ∈ imm24In i, imm24Of (encode i) = x := by
  cases i with
  | nop | clear | xmit | hsv2rgb | hlerp | rgb2hsv => simp [Instr.channel, imm16In, imm24In]
  | putpx ch | getpx ch => simp [Instr.channel, imm16In, imm24In, encode]
  | setb ch imm | setr ch imm | setg ch imm => simp [Instr.channel, imm16In, imm24In, encode]
  | ldh imm | lds imm | ldv imm | ldha imm | ldhb imm | ldf imm => simp [Instr.channel, imm16In, imm24In, encode]

/-- Settles O4: the word is the command's encoding, which has each operand in its field. -/
theorem operandFieldsAreReadAtTheirBits : Obligations.OperandFieldsAreReadAtTheirBits := by
  intro w i h
  obtain rfl := encode_of_decode h
  obtain ⟨hch, himm16, himm24⟩ := fields_encode i
  refine ⟨fun c hc => ?_, fun x hx => ?_, fun x hx => ?_⟩
  · rw [chN_eq, hch c hc]
  · rw [low16_eq, himm16 x hx]
  · rw [low24_eq, himm24 x hx]

/-- Masking the opcode keeps the opcode alone. -/
theorem and_opMask (w : Word) : w &&& 0xFF000000#32 = wordZ (opOf w) :=
  calc w &&& 0xFF000000#32
    _ = wordI (opOf w) (imm24Of w) &&& (BitVec.allOnes 8 ++ 0#24) := by rw [wordI_of_fields rfl]; rfl
    _ = wordZ (opOf w) := by
      rw [wordI, BitVec.and_append, BitVec.and_allOnes, BitVec.and_zero]; rfl

/-- Masking the opcode and `zero16` keeps these two fields. -/
theorem and_opZeroMask (w : Word) : w &&& 0xFF00FFFF#32 = wordCI (opOf w) 0 (imm16Of w) :=
  calc w &&& 0xFF00FFFF#32
    _ = wordCI (opOf w) (chOf w) (imm16Of w) &&& (BitVec.allOnes 8 ++ 0#8 ++ BitVec.allOnes 16) := by
      rw [wordCI_of_fields rfl]; rfl
    _ = wordCI (opOf w) 0 (imm16Of w) := by
      rw [wordCI, BitVec.and_append, BitVec.and_append, BitVec.and_allOnes, BitVec.and_allOnes, BitVec.and_zero]; rfl

theorem wordZ_of_selected {w : Word} {op : BitVec 8} (h : w &&& 0xFFFFFFFF = wordZ op) : wordZ op = w :=
  h.symm.trans BitVec.and_allOnes

theorem opOf_of_selected {w : Word} {op : BitVec 8} (h : w &&& 0xFF000000 = wordZ op) : opOf w = op := by
  simpa using congrArg opOf ((and_opMask w).symm.trans h)

theorem wordC_of_selected {w : Word} {op : BitVec 8} (h : w &&& 0xFF00FFFF = wordC op 0) : wordC op (chOf w) = w := by
  have hfields : wordCI (opOf w) 0 (imm16Of w) = wordC op 0 := (and_opZeroMask w).symm.trans h
  have hop : opOf w = op := by simpa using congrArg opOf hfields
  have hzero : imm16Of w = 0 := by simpa using congrArg imm16Of hfields
  exact wordC_of_fields (congrArg _ hop) hzero

theorem wordCI_of_selected {w : Word} {op : BitVec 8} (h : w &&& 0xFF000000 = wordZ op) :
    wordCI op (chOf w) (imm16Of w) = w :=
  wordCI_of_fields (congrArg _ (opOf_of_selected h))

theorem wordI_of_selected {w : Word} {op : BitVec 8} (h : w &&& 0xFF000000 = wordZ op) : wordI op (imm24Of w) = w :=
  wordI_of_fields (congrArg _ (opOf_of_selected h))

/-- The word of a command is selected by the row of its mnemonic: the mask keeps what the row fixes. -/
theorem encode_selects (i : Instr) :
    ∀ row ∈ opcodeMap, nameOf i = row.name → encode i &&& row.mask = row.value := by
  cases i with
  | nop | clear | xmit | hsv2rgb | hlerp | rgb2hsv => decide
  | putpx ch | getpx ch => simp [opcodeMap, nameOf, encode, and_opZeroMask]; rfl
  | setb ch imm | setr ch imm | setg ch imm | ldh imm | lds imm | ldv imm | ldha imm | ldhb imm | ldf imm =>
    simp [opcodeMap, nameOf, encode, and_opMask]; rfl

/-- A word that a row selects is the encoding of a command of the row, its operands the fields the mask leaves out. -/
theorem exists_encode_of_selected {row : Row} (hrow : row ∈ opcodeMap) {w : Word} (h : w &&& row.mask = row.value) :
    ∃ i, encode i = w ∧ nameOf i = row.name := by
  simp only [opcodeMap, List.mem_cons, List.not_mem_nil, or_false] at hrow
  obtain rfl | rfl | rfl | rfl | rfl | rfl | rfl | rfl | rfl | rfl | rfl | rfl | rfl | rfl | rfl | rfl | rfl := hrow
  · exact ⟨.nop, wordZ_of_selected h, rfl⟩
  · exact ⟨.clear, wordZ_of_selected h, rfl⟩
  · exact ⟨.xmit, wordZ_of_selected h, rfl⟩
  · exact ⟨.setb _ _, wordCI_of_selected h, rfl⟩
  · exact ⟨.setr _ _, wordCI_of_selected h, rfl⟩
  · exact ⟨.setg _ _, wordCI_of_selected h, rfl⟩
  · exact ⟨.putpx _, wordC_of_selected h, rfl⟩
  · exact ⟨.getpx _, wordC_of_selected h, rfl⟩
  · exact ⟨.ldh _, wordI_of_selected h, rfl⟩
  · exact ⟨.lds _, wordI_of_selected h, rfl⟩
  · exact ⟨.ldv _, wordI_of_selected h, rfl⟩
  · exact ⟨.ldha _, wordI_of_selected h, rfl⟩
  · exact ⟨.ldhb _, wordI_of_selected h, rfl⟩
  · exact ⟨.ldf _, wordI_of_selected h, rfl⟩
  · exact ⟨.hsv2rgb, wordZ_of_selected h, rfl⟩
  · exact ⟨.hlerp, wordZ_of_selected h, rfl⟩
  · exact ⟨.rgb2hsv, wordZ_of_selected h, rfl⟩

/-- Settles O3: a command's word is selected by its own row, and a selected word encodes a command of the row. -/
theorem opcodeMapSelectsByMaskAndMatch : Obligations.OpcodeMapSelectsByMaskAndMatch := by
  intro row hrow w
  constructor
  · rintro ⟨i, hi, hname⟩
    rw [← encode_of_decode hi]
    exact encode_selects i row hrow hname
  · intro h
    obtain ⟨i, rfl, hname⟩ := exists_encode_of_selected hrow h
    exact ⟨i, decode_encode i, hname⟩

/-- Settles O5: the accepted words are encodings of their commands; the other two have a nonzero must-be-zero field and
an opcode outside the map. -/
theorem exampleWordsDecode : Obligations.ExampleWordsDecode :=
  ⟨decode_encode .nop, decode_encode (.setb 3 0x0FFF), decode_encode (.setr 3 0xFFFB), decode_encode (.putpx 2),
    decode_encode (.ldh 0xFFFFFF), decode_encode (.ldf 0x008000), decode_encode .hlerp, rfl, rfl⟩

/-! ### The outcome of an offered word -/

theorem takeOffered_sampleReset (s : State) (ws : List Word) : (s.sampleReset false).takeOffered ws = taken s ws := rfl

/-- A step with a word offered and the sequencer ready accepts the word (R91). -/
theorem step_of_offers {s : State} {w : Word} {ws : List Word} (h : Offers s w ws) :
    step s = acceptWord w (taken s ws) := by
  obtain ⟨hreset, hbusy, hoffered⟩ := h
  rw [step_of_ready hreset hbusy]
  simp [sequencerStep, hoffered, takeOffered_sampleReset]

theorem acceptWord_of_command {w : Word} {i : Instr} (h : decode w = .command i) (s : State) :
    acceptWord w s = exec i s := by
  simp [acceptWord, h]

/-- Raising a command error leaves what R229 writes. -/
theorem raiseCmdError_eq_recorded (c : Cause) (w : Word) (s : State) :
    raiseCmdError c w s = recorded c.code w s := by
  obtain ⟨herr, h⟩ | ⟨herr, h⟩ := raiseCmdError_cases c w s <;> simp [h, recorded, herr]

theorem acceptWord_of_rejected {w : Word} {c : Cause} (h : decode w = .rejected c) (s : State) :
    acceptWord w s = .next (recorded c.code w s) := by
  simp [acceptWord, h, raiseCmdError_eq_recorded]

/-- Settles O9: `step_of_offers`, and the word decodes to its command. -/
theorem stepRunsTheDecodedCommand : Obligations.StepRunsTheDecodedCommand :=
  fun s _ ws _ hoffers hdecode => (step_of_offers hoffers).trans (acceptWord_of_command hdecode (taken s ws))

/-! The opcode fixes the format (R98). -/

theorem decode_of_not_mem_ops {w : Word} (h : opN w ∉ ops) : decode w = .rejected .illegalOpcode := by
  simp only [opN_eq, ops, opsZ, opsC, opsCI, opsI] at h
  unfold decode
  split
  case h_18 => rfl
  all_goals next hop => simp [hop] at h

theorem decode_of_mem_opsZ {w : Word} (h : opN w ∈ opsZ) :
    ∃ i, decode w = formatZ w i ∧ i.channel = none := by
  simp only [opN_eq, opsZ, List.mem_cons, List.not_mem_nil, or_false] at h
  obtain h | h | h | h | h | h := h <;> simp only [decode, h] <;> exact ⟨_, rfl, rfl⟩

theorem decode_of_mem_opsC {w : Word} (h : opN w ∈ opsC) :
    ∃ f, decode w = formatC w f ∧ ∀ ch, (f ch).channel = some ch := by
  simp only [opN_eq, opsC, List.mem_cons, List.not_mem_nil, or_false] at h
  obtain h | h := h <;> simp only [decode, h] <;> exact ⟨_, rfl, fun _ => rfl⟩

theorem decode_of_mem_opsCI {w : Word} (h : opN w ∈ opsCI) :
    ∃ f, decode w = formatCI w f ∧ ∀ ch imm, (f ch imm).channel = some ch := by
  simp only [opN_eq, opsCI, List.mem_cons, List.not_mem_nil, or_false] at h
  obtain h | h | h := h <;> simp only [decode, h] <;> exact ⟨_, rfl, fun _ _ => rfl⟩

theorem decode_of_mem_opsI {w : Word} (h : opN w ∈ opsI) :
    ∃ f, decode w = formatI w f ∧ ∀ imm, (f imm).channel = none := by
  simp only [opN_eq, opsI, List.mem_cons, List.not_mem_nil, or_false] at h
  obtain h | h | h | h | h | h := h <;> simp only [decode, h] <;> exact ⟨_, rfl, fun _ => rfl⟩

theorem low16_eq_zero_iff {w : Word} : low16 w = 0 ↔ imm16Of w = 0 := by
  rw [low16_eq]; exact BitVec.toNat_inj (y := 0)

theorem low24_eq_zero_iff {w : Word} : low24 w = 0 ↔ imm24Of w = 0 := by
  rw [low24_eq]; exact BitVec.toNat_inj (y := 0)

/-- R100 (2): a nonzero must-be-zero field rejects the word. -/
theorem decode_of_reservedBad {w : Word} (h : ReservedBad w) : decode w = .rejected .reservedField := by
  obtain ⟨hop, hlow⟩ | ⟨hop, hlow⟩ := h
  · obtain ⟨i, hdecode, -⟩ := decode_of_mem_opsZ hop
    rw [hdecode]
    exact if_neg (mt low24_eq_zero_iff.2 hlow)
  · obtain ⟨f, hdecode, -⟩ := decode_of_mem_opsC hop
    rw [hdecode]
    exact if_neg (mt low16_eq_zero_iff.2 hlow)

/-- A word past steps (1) and (2) of R100 with an opcode of format C or CI decodes to a command on its channel field. -/
theorem decode_of_channel_op {w : Word} (h : opN w ∈ opsC ++ opsCI) (hres : ¬ReservedBad w) :
    ∃ i, decode w = .command i ∧ i.channel = some (chOf w) := by
  obtain hop | hop := List.mem_append.1 h
  · obtain ⟨f, hdecode, hchannel⟩ := decode_of_mem_opsC hop
    have hzero : imm16Of w = 0 := by
      by_contra hne
      exact hres (.inr ⟨hop, mt low16_eq_zero_iff.1 hne⟩)
    exact ⟨_, hdecode.trans (if_pos hzero), hchannel _⟩
  · obtain ⟨f, hdecode, hchannel⟩ := decode_of_mem_opsCI hop
    exact ⟨_, hdecode, hchannel _ _⟩

/-- A word past steps (1) and (2) of R100 with another opcode decodes to a command without a channel. -/
theorem decode_of_other_op {w : Word} (h : opN w ∈ ops) (hno : opN w ∉ opsC ++ opsCI) (hres : ¬ReservedBad w) :
    ∃ i, decode w = .command i ∧ i.channel = none := by
  have hop : opN w ∈ opsZ ∨ opN w ∈ opsI := by
    simp only [ops, List.mem_append] at h hno
    tauto
  obtain hop | hop := hop
  · obtain ⟨i, hdecode, hchannel⟩ := decode_of_mem_opsZ hop
    have hzero : imm24Of w = 0 := by
      by_contra hne
      exact hres (.inl ⟨hop, mt low24_eq_zero_iff.1 hne⟩)
    exact ⟨i, hdecode.trans (if_pos hzero), hchannel⟩
  · obtain ⟨f, hdecode, hchannel⟩ := decode_of_mem_opsI hop
    exact ⟨_, hdecode, hchannel _⟩

/-! Commands with a channel and without (R100 (3)). -/

/-- A command with a channel is `onChannel` with an effect that leaves the flags and the error record alone. -/
theorem exec_of_channel {i : Instr} {c : BitVec 8} (h : i.channel = some c) :
    ∃ effect : State → State, (∀ s, exec i s = onChannel i c effect s) ∧ ∀ s, (effect s).stat = s.stat := by
  cases i with
  | setb ch imm | setr ch imm | setg ch imm | putpx ch | getpx ch =>
    cases h
    exact ⟨_, fun _ => rfl, fun _ => rfl⟩
  | nop | clear | xmit | ldh imm | lds imm | ldv imm | ldha imm | ldhb imm | ldf imm | hsv2rgb | hlerp | rgb2hsv =>
    cases h

theorem exec_of_missing_channel {i : Instr} {c : BitVec 8} {s : State} (h : i.channel = some c)
    (hmissing : s.build.nch ≤ c.toNat) : exec i s = .next (recorded 2 (encode i) s) := by
  obtain ⟨effect, hexec, -⟩ := exec_of_channel h
  rw [hexec, onChannel, if_neg hmissing.not_gt, raiseCmdError_eq_recorded]
  rfl

/-- The error record of `t` is that of `s` (R31, R36, R37). -/
def SameErrorRecord (s t : State) : Prop :=
  t.stat.err = s.stat.err ∧ t.stat.errcode = s.stat.errcode ∧ t.stat.errinfo = s.stat.errinfo

theorem exec_of_existing_channel {i : Instr} {c : BitVec 8} {s : State} (h : i.channel = some c)
    (hexists : c.toNat < s.build.nch) : ∃ t, exec i s = .next t ∧ SameErrorRecord s t := by
  obtain ⟨effect, hexec, hstat⟩ := exec_of_channel h
  exact ⟨effect s, (hexec s).trans (if_pos hexists), by simp [SameErrorRecord, hstat]⟩

theorem exec_of_no_channel {i : Instr} (h : i.channel = none) (s : State) :
    ∃ t, exec i s = .next t ∧ SameErrorRecord s t := by
  obtain ⟨t, ht, -⟩ := exec_answers i s
  obtain ⟨-, -, -, -, -, -, -, -, -, -, -, -, -, hrecord⟩ := eachRegisterHasItsWriters i s t ht
  have hsame : (t.stat.err, t.stat.errcode, t.stat.errinfo) = (s.stat.err, s.stat.errcode, s.stat.errinfo) := by
    by_contra hne
    simpa [hasChannel, h] using (hrecord hne).1
  exact ⟨t, ht, by simpa [SameErrorRecord] using hsame⟩

/-- R100 (4): a command that is well formed in the build executes and raises no error. -/
theorem exec_of_wf {i : Instr} {s : State} (h : i.wf s.build.nch = true) :
    ∃ t, exec i s = .next t ∧ SameErrorRecord s t := by
  cases hch : i.channel with
  | none => exact exec_of_no_channel hch s
  | some c => exact exec_of_existing_channel hch (by simpa [Instr.wf, hch] using h)

/-- R100 (4): a word with an opcode of the map, its must-be-zero field 0 and its channel, if it has one, in the build
decodes to a well-formed command. -/
theorem decode_wellFormed {w : Word} {nch : Nat} (hop : opN w ∈ ops) (hres : ¬ReservedBad w)
    (hch : opN w ∈ opsC ++ opsCI → chN w < nch) : ∃ i, decode w = .command i ∧ i.wf nch = true := by
  by_cases h : opN w ∈ opsC ++ opsCI
  · obtain ⟨i, hdecode, hchannel⟩ := decode_of_channel_op h hres
    exact ⟨i, hdecode, by simpa [Instr.wf, hchannel, chN_eq] using hch h⟩
  · obtain ⟨i, hdecode, hchannel⟩ := decode_of_other_op hop h hres
    exact ⟨i, hdecode, by simp [Instr.wf, hchannel]⟩

/-- Settles O6: the step accepts the word, which the classes of R100 decode as they say; a missing channel is caught
by the command's meaning, with the offered word as its encoding. -/
theorem everyOfferedWordHasItsOutcome : Obligations.EveryOfferedWordHasItsOutcome := by
  intro s w ws hoffers
  rw [step_of_offers hoffers]
  refine ⟨fun hop => ?illegal, fun hbad => ?reserved, fun hres hop hmissing => ?missing,
    fun hop hres hch => ?wellFormed⟩
  case illegal => exact acceptWord_of_rejected (decode_of_not_mem_ops hop) _
  case reserved => exact acceptWord_of_rejected (decode_of_reservedBad hbad) _
  case missing =>
    obtain ⟨i, hdecode, hchannel⟩ := decode_of_channel_op hop hres
    rw [acceptWord_of_command hdecode, exec_of_missing_channel hchannel (chN_eq w ▸ hmissing), encode_of_decode hdecode]
  case wellFormed =>
    obtain ⟨i, hdecode, hwf⟩ := decode_wellFormed hop hres hch
    obtain ⟨t, ht, hrecord⟩ := exec_of_wf (s := taken s ws) hwf
    exact ⟨i, t, encode_of_decode hdecode, hwf, (acceptWord_of_command hdecode _).trans ht, ht, hrecord⟩

end Sys2Proof.Claims

namespace Sys2Proof.Machine

/-! ### `PUTALL` -/

/-- The result register of a component's colour (R126). -/
def Regs.result (r : Regs) : Component → Level
  | .blue => r.b
  | .red => r.r
  | .green => r.g

/-- `putChannel` on each channel of a list, in order. -/
def putChannels (cs : List Nat) (s : State) : State := cs.foldl (fun u c => putChannel c u) s

@[simp] theorem putChannels_nil (s : State) : putChannels [] s = s := rfl

@[simp] theorem putChannels_cons (c : Nat) (cs : List Nat) (s : State) :
    putChannels (c :: cs) s = putChannels cs (putChannel c s) := rfl

theorem writeCell_wf {s : State} (h : s.fb.wf = true) (c : Nat) (k : Component) (v : Level) :
    (s.writeCell c k v).fb.wf = true :=
  Memory.wf_write _ _ h

theorem putChannel_wf {s : State} (h : s.fb.wf = true) (c : Nat) : (putChannel c s).fb.wf = true :=
  writeCell_wf (writeCell_wf (writeCell_wf h ..) ..) ..

/-- `PUTPX`'s effect: each cell of the channel holds the register of its colour, the other channels stay (R126). -/
theorem cell_putChannel {s : State} (h : s.fb.wf = true) (c d : Nat) (k : Component) :
    (putChannel c s).cell d k = if d = c then s.regs.result k else s.cell d k := by
  by_cases hd : d = c
  · subst hd
    rw [if_pos rfl]
    cases k with
    | blue => simp [putChannel, Regs.result, State.cell_writeCell_same, State.cell_writeCell_other, h]
    | red => simp [putChannel, Regs.result, State.cell_writeCell_same, State.cell_writeCell_other, Memory.wf_write, h]
    | green => exact State.cell_writeCell_same (writeCell_wf (writeCell_wf h ..) ..) ..
  · simp [putChannel, State.cell_writeCell_other, hd]

theorem putChannels_frame (cs : List Nat) (s : State) : putChannels cs s = { s with fb := (putChannels cs s).fb } := by
  induction cs generalizing s with
  | nil => rfl
  | cons c cs ih => exact ih (putChannel c s)

theorem cell_putChannels (cs : List Nat) {s : State} (h : s.fb.wf = true) (d : Nat) (k : Component) :
    (putChannels cs s).cell d k = if d ∈ cs then s.regs.result k else s.cell d k := by
  induction cs generalizing s with
  | nil => simp
  | cons c cs ih =>
    have hregs : (putChannel c s).regs = s.regs := rfl
    rw [putChannels_cons, ih (putChannel_wf h c), cell_putChannel h, hregs]
    by_cases hd : d = c <;> simp [hd]

theorem exec_putpx {s : State} {c : BitVec 8} (h : c.toNat < s.build.nch) :
    exec (.putpx c) s = .next (putChannel c.toNat s) := if_pos h

/-- `PUTPX` on existing channels one after another; a channel number fits its 8-bit field because a build has at most
256 channels (R5). -/
theorem execAll_putpx (cs : List Nat) {s : State} (hbuild : s.build.nch ≤ 256) (hcs : ∀ c ∈ cs, c < s.build.nch) :
    execAll (cs.map fun c => .putpx (BitVec.ofNat 8 c)) s = .next (putChannels cs s) := by
  induction cs generalizing s with
  | nil => rfl
  | cons c cs ih =>
    obtain ⟨hc, hcs⟩ := List.forall_mem_cons.1 hcs
    have hfield : (BitVec.ofNat 8 c).toNat = c := by
      rw [BitVec.toNat_ofNat]
      omega
    have hput : exec (.putpx (BitVec.ofNat 8 c)) s = .next (putChannel c s) := by
      rw [exec_putpx (by rwa [hfield]), hfield]
    simp only [List.map_cons, execAll, hput, putChannels_cons]
    exact ih hbuild hcs

end Sys2Proof.Machine

namespace Sys2Proof.Claims

open Sys2Proof.Machine

/-- Settles O20: the expansion is `PUTPX` on each channel of the build, and each leaves its channel at the result
registers. -/
theorem putallWritesEveryChannel : Obligations.PutallWritesEveryChannel := by
  intro s hlegal hwf
  obtain ⟨-, hnch, -⟩ := hlegal
  have hcell : ∀ c, c < s.build.nch → ∀ k, (putChannels (List.range s.build.nch) s).cell c k = s.regs.result k := by
    intro c hc k
    rw [cell_putChannels _ hwf, if_pos (List.mem_range.2 hc)]
  exact ⟨_, execAll_putpx _ hnch fun _ => List.mem_range.1, putChannels_frame _ s,
    fun c hc => ⟨hcell c hc .blue, hcell c hc .red, hcell c hc .green⟩⟩

end Sys2Proof.Claims
end

section
/-! PROOFS of the frame-buffer statements (spec/40_framebuffer_ops.md): `CLEAR` (R121), `SETB`, `SETR`, `SETG` (R122 to
R125), `PUTPX` (R126) and `GETPX` (R127). -/

namespace Sys2Proof.Claims

open Sys2Proof.Machine

/-! ### Rejected words, by the format of their opcode -/

theorem rejectsZ_of_mem {op : Nat} (hop : op ∈ opsZ) (s : State) : RejectsZ op s := by
  rintro w rfl hlow
  exact acceptWord_of_rejected (decode_of_reservedBad (.inl ⟨hop, hlow⟩)) s

/-- A word that decodes to a command on a missing channel is only recorded, with itself as the command's word (R227). -/
theorem acceptWord_of_missing_channel {w : Word} {i : Instr} {s : State} (hdecode : decode w = .command i)
    (hchannel : i.channel = some (chOf w)) (hmissing : s.build.nch ≤ chN w) :
    acceptWord w s = .next (recorded 2 w s) := by
  rw [acceptWord_of_command hdecode, exec_of_missing_channel hchannel (chN_eq w ▸ hmissing), encode_of_decode hdecode]

theorem rejectsC_of_mem {op : Nat} (hop : op ∈ opsC) (s : State) : RejectsC op s := by
  rintro w rfl
  refine ⟨fun hlow => ?reserved, fun hlow hmissing => ?missing⟩
  case reserved => exact acceptWord_of_rejected (decode_of_reservedBad (.inr ⟨hop, hlow⟩)) s
  case missing =>
    obtain ⟨f, hdecode, hchannel⟩ := decode_of_mem_opsC hop
    exact acceptWord_of_missing_channel (hdecode.trans (if_pos (low16_eq_zero_iff.1 hlow))) (hchannel _) hmissing

theorem rejectsCI_of_mem {op : Nat} (hop : op ∈ opsCI) (s : State) : RejectsCI op s := by
  rintro w rfl hmissing
  obtain ⟨f, hdecode, hchannel⟩ := decode_of_mem_opsCI hop
  exact acceptWord_of_missing_channel hdecode (hchannel _ _) hmissing

end Sys2Proof.Claims

namespace Sys2Proof.Machine

/-! ### `CLEAR` -/

/-- Every cell number is a channel's and a component's (log 8). -/
theorem exists_eq_cellAddr (x : Nat) : ∃ c k, x = cellAddr c k := by
  have hx : x % 3 = 0 ∨ x % 3 = 1 ∨ x % 3 = 2 := by omega
  obtain hx | hx | hx := hx
  · exact ⟨x / 3, .blue, by simp only [cellAddr, Component.index]; omega⟩
  · exact ⟨x / 3, .red, by simp only [cellAddr, Component.index]; omega⟩
  · exact ⟨x / 3, .green, by simp only [cellAddr, Component.index]; omega⟩

/-- Zeroing cells that are zero already changes nothing, because equal contents are equal canonical buffers. -/
theorem Memory.clearBelow_eq_self {n : Nat} {m : Memory} (h : m.wf = true)
    (hzero : ∀ x, x < n → m.read x = Memory.blank) : m.clearBelow n = m := by
  refine Memory.eq_of_read_eq (Memory.wf_clearBelow n h) h fun x => ?_
  rw [Memory.read_clearBelow]
  split_ifs with hx
  · exact (hzero x hx).symm
  · rfl

theorem read_of_cells_zero {s : State} (h : ∀ c k, c < s.build.nch → s.cell c k = 0) {x : Nat}
    (hx : x < 3 * s.build.nch) : s.fb.read x = Memory.blank := by
  obtain ⟨c, k, rfl⟩ := exists_eq_cellAddr x
  exact h c k (cellAddr_lt.1 hx)

/-! ### `PUTPX` and `GETPX` -/

theorem exec_getpx {s : State} {c : BitVec 8} (h : c.toNat < s.build.nch) :
    exec (.getpx c) s = .next (getChannel c.toNat s) := if_pos h

theorem putChannel_frame (c : Nat) (s : State) : putChannel c s = { s with fb := (putChannel c s).fb } := rfl

theorem cell_putChannel_same {s : State} (h : s.fb.wf = true) (c : Nat) (k : Component) :
    (putChannel c s).cell c k = s.regs.result k := (cell_putChannel h c c k).trans (if_pos rfl)

theorem read_putChannel_other {c a : Nat} (h : ∀ k, a ≠ cellAddr c k) (s : State) :
    (putChannel c s).fb.read a = s.fb.read a := by
  simp [putChannel, Memory.read_write_other, h]

/-- `GETPX`'s effect: each result register holds the cell of its colour (R127). -/
theorem result_getChannel (c : Nat) (s : State) (k : Component) : (getChannel c s).regs.result k = s.cell c k := by
  cases k <;> rfl

/-- Reading back the channel just written finds every result register as it was. -/
theorem regs_getChannel_putChannel {s : State} (h : s.fb.wf = true) (c : Nat) :
    (getChannel c (putChannel c s)).regs = s.regs := by
  simp only [getChannel, cell_putChannel_same h]
  rfl

/-- Copying through the result registers: the target channel holds the source, the other channels stay (R126, R127). -/
theorem cell_putChannel_getChannel {s : State} (h : s.fb.wf = true) (c d e : Nat) (k : Component) :
    (putChannel d (getChannel c s)).cell e k = if e = d then s.cell c k else s.cell e k := by
  have hwf : (getChannel c s).fb.wf = true := h
  have hkept : (getChannel c s).cell e k = s.cell e k := State.cell_congr rfl e k
  rw [cell_putChannel hwf, result_getChannel, hkept]

end Sys2Proof.Machine

namespace Sys2Proof.Claims

open Sys2Proof.Machine

/-! ### The component operand -/

theorem componentOperand_toNat (imm : BitVec 16) : (componentOperand imm).toNat = storedValue imm := by
  have hclamp : ((componentOperand imm).toNat : ℤ) = max 0 (min 4095 imm.toInt) := clamp12_toNat _
  have hsigned := BitVec.toInt_eq_toNat_cond imm
  have hlt := imm.isLt
  unfold storedValue
  split_ifs at hsigned ⊢ <;> omega

/-- A command of format CI whose meaning writes its operand to component `k` of its channel stores the clamped operand
there, and nothing else. -/
theorem storesComponent_of_writeCell {mk : BitVec 8 → BitVec 16 → Instr} {op : BitVec 8} {k : Component}
    (hop : op.toNat ∈ opsCI) (hword : ∀ c imm, encode (mk c imm) = wordCI op c imm)
    (hexec : ∀ c imm s, exec (mk c imm) s =
      onChannel (mk c imm) c (State.writeCell c.toNat k (componentOperand imm)) s) :
    StoresComponent mk op.toNat k := by
  intro c imm s hwf
  have hcell := State.cell_writeCell_same hwf c.toNat k (componentOperand imm)
  refine ⟨by rw [hword, wordCI_toNat], rejectsCI_of_mem hop s, fun hc =>
    ⟨_, (hexec c imm s).trans (if_pos hc), rfl, ?_, ?_, fun a ha => Memory.read_write_other _ ha⟩⟩
  · rw [hcell, componentOperand_toNat]
  · rw [hcell]
    exact clamp12_toNat _

/-! ### The statements -/

/-- Settles O15: clearing zeroes the cell numbers below `3 * NCH`, which are the cells of the build; where they are zero
already the buffer stays as it is. -/
theorem clearZeroesEveryCell : Obligations.ClearZeroesEveryCell := by
  intro s
  refine ⟨rfl, rejectsZ_of_mem (by decide) s, _, rfl, rfl, fun c k hc => ?zeroed, fun a ha => ?kept,
    fun hwf hzero => ?unchanged⟩
  case zeroed => exact (Memory.read_clearBelow ..).trans (if_pos (cellAddr_lt.2 hc))
  case kept => exact (Memory.read_clearBelow ..).trans (if_neg ha.not_gt)
  case unchanged => rw [Memory.clearBelow_eq_self hwf fun x hx => read_of_cells_zero hzero hx]

/-- Settles O16: each of the three is a write of the clamped operand to the cell of its own colour. -/
theorem setStoresTheClampedComponent : Obligations.SetStoresTheClampedComponent :=
  ⟨storesComponent_of_writeCell (op := 0x10) (by decide) (fun _ _ => rfl) (fun _ _ _ => rfl),
    storesComponent_of_writeCell (op := 0x11) (by decide) (fun _ _ => rfl) (fun _ _ _ => rfl),
    storesComponent_of_writeCell (op := 0x12) (by decide) (fun _ _ => rfl) (fun _ _ _ => rfl)⟩

/-- Settles O17: the next state is `putChannel`'s, whose three writes reach the cells of the channel only. -/
theorem putpxWritesEachColourToItsCell : Obligations.PutpxWritesEachColourToItsCell := by
  intro c s hwf
  have hcell := cell_putChannel_same hwf c.toNat
  exact ⟨wordC_toNat 0x14 c, rejectsC_of_mem (by decide) s, fun hc =>
    ⟨_, exec_putpx hc, putChannel_frame _ s, hcell .blue, hcell .red, hcell .green, fun a ha =>
      read_putChannel_other ha s⟩⟩

/-- Settles O18: the next state is `getChannel`'s. -/
theorem getpxReadsEachColourFromItsCell : Obligations.GetpxReadsEachColourFromItsCell :=
  fun c s => ⟨wordC_toNat 0x15 c, rejectsC_of_mem (by decide) s, exec_getpx⟩

/-- Settles O19: the result registers carry the source channel to the target; after `PUTPX` the channel holds what
`GETPX` then reads back. -/
theorem getThenPutCopiesAChannel : Obligations.GetThenPutCopiesAChannel := by
  intro c d s hwf hc hd
  refine ⟨⟨_, _, exec_getpx hc, exec_putpx hd, fun k => ?target, fun e k he => ?others⟩,
    ⟨_, _, exec_putpx hc, exec_getpx hc, regs_getChannel_putChannel hwf _⟩⟩
  case target => rw [cell_putChannel_getChannel hwf, if_pos rfl]
  case others => rw [cell_putChannel_getChannel hwf, if_neg he]

end Sys2Proof.Claims
end

section
/-! PROOFS of the output-protocol statements (spec/41_output_protocol.md): the order of a frame's bits and its entries
(R142, R151, R152), what the chain makes of them (R158 to R161), the micro-steps (R144 to R150), and a whole
transmission (R151, R153, R163). -/

namespace Sys2Proof.Machine

/-! ### Lists of equal blocks -/

section Blocks

variable {α β : Type} {f : α → List β} {m : Nat} (hf : ∀ x, (f x).length = m)
include hf

theorem length_flatMap_of_uniform (l : List α) : (l.flatMap f).length = m * l.length := by
  simp [List.length_flatMap, hf, Nat.mul_comm]

/-- Entry `r` of block `q`, counted through the blocks before it. -/
theorem getElem?_flatMap_of_uniform {r : Nat} (hr : r < m) (l : List α) (q : Nat) :
    (l.flatMap f)[m * q + r]? = l[q]?.bind fun x => (f x)[r]? := by
  induction l generalizing q with
  | nil => rfl
  | cons x l ih =>
    cases q with
    | zero => simp [List.getElem?_append_left, hf, hr]
    | succ q =>
      have hskip : m * (q + 1) + r - m = m * q + r := by rw [Nat.mul_succ]; omega
      rw [List.flatMap_cons, List.getElem?_append_right (by rw [hf, Nat.mul_succ]; omega), hf, hskip, ih]
      rfl

end Blocks

/-! ### The bits of a frame -/

theorem levelBits_length (v : Level) : (levelBits v).length = 12 := by simp [levelBits]

theorem channelBits_length (s : State) (c : Nat) : (channelBits s c).length = 36 :=
  length_flatMap_of_uniform (fun k => levelBits_length (s.cell c k)) _

theorem frameBits_length (s : State) : (frameBits s).length = 36 * s.build.nch := by
  simp [frameBits, length_flatMap_of_uniform (channelBits_length s)]

/-- How many bits of a frame are sent before bit `b` of component `k` of channel `c` (R142). -/
def bitNumber (nch c : Nat) (k : Component) (b : Nat) : Nat := 36 * (nch - 1 - c) + (12 * k.index + (11 - b))

theorem levelBits_getElem? (v : Level) {b : Nat} (hb : b < 12) : (levelBits v)[11 - b]? = some (v.getLsbD b) := by
  have hlast : 11 - (11 - b) = b := by omega
  simp [levelBits, show 11 - b < 12 by omega, hlast]

theorem sendOrder_getElem? (k : Component) : Component.sendOrder[k.index]? = some k := by cases k <;> rfl

theorem channelBits_getElem? (s : State) (c : Nat) (k : Component) {b : Nat} (hb : b < 12) :
    (channelBits s c)[12 * k.index + (11 - b)]? = some ((s.cell c k).getLsbD b) := by
  rw [channelBits, getElem?_flatMap_of_uniform (fun l => levelBits_length (s.cell c l)) (by omega),
    sendOrder_getElem?, Option.bind_some, levelBits_getElem? _ hb]

/-- Channels go out in descending order, in each blue, red, green, in each the most significant bit first (R142). -/
theorem frameBits_getElem? (s : State) {c b : Nat} (hc : c < s.build.nch) (k : Component) (hb : b < 12) :
    (frameBits s)[bitNumber s.build.nch c k b]? = some ((s.cell c k).getLsbD b) := by
  have hk := k.index_lt
  have hchannel : (List.range s.build.nch).reverse[s.build.nch - 1 - c]? = some c := by
    rw [List.getElem?_reverse (by simp; omega), List.length_range, List.getElem?_range (by omega)]
    congr 1
    omega
  rw [frameBits, bitNumber, getElem?_flatMap_of_uniform (channelBits_length s) (by omega), hchannel,
    Option.bind_some, channelBits_getElem? _ _ _ hb]

theorem bitNumber_lt {nch c : Nat} (hc : c < nch) (k : Component) (b : Nat) : bitNumber nch c k b < 36 * nch := by
  have hk := k.index_lt
  unfold bitNumber
  omega

theorem Component.exists_index_eq {i : Nat} (hi : i < 3) : ∃ k : Component, k.index = i := by
  obtain rfl | rfl | rfl : i = 0 ∨ i = 1 ∨ i = 2 := by omega
  · exact ⟨.blue, rfl⟩
  · exact ⟨.red, rfl⟩
  · exact ⟨.green, rfl⟩

/-- The last bit of a frame is bit 0 of the green cell of channel 0. -/
theorem frameBits_getLastD {s : State} (hnch : 0 < s.build.nch) :
    (frameBits s).getLastD false = (s.cell 0 .green).getLsbD 0 := by
  have hlast : bitNumber s.build.nch 0 .green 0 = (frameBits s).length - 1 := by
    simp only [frameBits_length, bitNumber, Component.index]
    omega
  have hbit := frameBits_getElem? s hnch .green (b := 0) (by decide)
  rw [hlast, ← List.getLast?_eq_getElem?] at hbit
  simp [List.getLastD_eq_getLast?, hbit]

/-! ### The entries of one transmission -/

theorem mem_bitTrace {d : Bool} {p : Pins} (h : p ∈ bitTrace d) : p.latch = false ∧ p.blank = false := by
  simp only [bitTrace, List.mem_cons, List.not_mem_nil, or_false] at h
  obtain rfl | rfl | rfl := h <;> exact ⟨rfl, rfl⟩

/-- In the shift entries of a frame the latch and the blank are down. -/
theorem mem_shiftEntries {bits : List Bool} {p : Pins} (h : p ∈ bits.flatMap bitTrace) :
    p.latch = false ∧ p.blank = false := by
  obtain ⟨d, -, hd⟩ := List.mem_flatMap.1 h
  exact mem_bitTrace hd

theorem bitTrace_length (d : Bool) : (bitTrace d).length = 3 := rfl

theorem shiftEntries_length (bits : List Bool) : (bits.flatMap bitTrace).length = 3 * bits.length :=
  length_flatMap_of_uniform bitTrace_length bits

theorem xmitTrace_length (bits : List Bool) : (xmitTrace bits).length = 3 * bits.length + 2 := by
  rw [xmitTrace, List.length_append, shiftEntries_length, strobeTrace]
  rfl

theorem xmitTrace_frameBits_length (s : State) : (xmitTrace (frameBits s)).length = 108 * s.build.nch + 2 := by
  rw [xmitTrace_length, frameBits_length]
  omega

/-- The entries of bit number `n`. -/
theorem xmitTrace_getElem?_bit {bits : List Bool} {n : Nat} {d : Bool} (h : bits[n]? = some d) {ph : Nat}
    (hph : ph < 3) : (xmitTrace bits)[3 * n + ph]? = (bitTrace d)[ph]? := by
  obtain ⟨hn, -⟩ := List.getElem?_eq_some_iff.1 h
  rw [xmitTrace, List.getElem?_append_left (by rw [shiftEntries_length]; omega),
    getElem?_flatMap_of_uniform bitTrace_length hph, h, Option.bind_some]

/-- The entries of the strobe. -/
theorem xmitTrace_getElem?_strobe (bits : List Bool) (ph : Nat) :
    (xmitTrace bits)[3 * bits.length + ph]? = (strobeTrace (bits.getLastD false))[ph]? := by
  rw [xmitTrace, List.getElem?_append_right (by rw [shiftEntries_length]; omega), shiftEntries_length,
    Nat.add_sub_cancel_left]

theorem countP_sclk_xmitTrace (bits : List Bool) : (xmitTrace bits).countP (·.sclk) = bits.length := by
  have hone : ∀ d, (bitTrace d).countP (·.sclk) = 1 := fun _ => rfl
  simp [xmitTrace, strobeTrace, List.countP_flatMap, Function.comp_def, hone]

theorem countP_latch_xmitTrace (bits : List Bool) : (xmitTrace bits).countP (·.latch) = 1 := by
  have hnone : ∀ d, (bitTrace d).countP (·.latch) = 0 := fun _ => rfl
  simp [xmitTrace, strobeTrace, List.countP_flatMap, Function.comp_def, hnone]

theorem mem_xmitTrace_ok {bits : List Bool} {p : Pins} (h : p ∈ xmitTrace bits) : p.Ok := by
  obtain hshift | hstrobe := List.mem_append.1 h
  · obtain ⟨hlatch, hblank⟩ := mem_shiftEntries hshift
    simp [Pins.Ok, hlatch, hblank]
  · simp only [strobeTrace, List.mem_cons, List.not_mem_nil, or_false] at hstrobe
    obtain rfl | rfl := hstrobe <;> simp [Pins.Ok]

/-! ### The observer over several entries -/

theorem Chain.observeAll_append (nbits : Nat) (prev : Pins) (xs ys : List Pins) (ch : Chain) :
    Chain.observeAll nbits prev (xs ++ ys) ch =
      Chain.observeAll nbits (xs.getLastD prev) ys (Chain.observeAll nbits prev xs ch) := by
  induction xs generalizing prev ch with
  | nil => rfl
  | cons x xs ih =>
    simp only [List.cons_append, Chain.observeAll, ih]
    cases xs <;> rfl

theorem Chain.observeAll_concat (nbits : Nat) (prev : Pins) (es : List Pins) (p : Pins) (ch : Chain) :
    Chain.observeAll nbits prev (es ++ [p]) ch =
      Chain.observe nbits (es.getLastD prev) p (Chain.observeAll nbits prev es ch) :=
  Chain.observeAll_append nbits prev es [p] ch

/-- While the latch and the blank stay down the displayed frame stays, with the output enabled (R161). -/
theorem Chain.observeAll_of_down (nbits : Nat) {prev : Pins} {es : List Pins} {ch : Chain}
    (hdown : ∀ p ∈ es, p.latch = false ∧ p.blank = false) (hoe : ch.oe = true) :
    (Chain.observeAll nbits prev es ch).vis = ch.vis ∧ (Chain.observeAll nbits prev es ch).oe = true := by
  induction es generalizing prev ch with
  | nil => exact ⟨rfl, hoe⟩
  | cons p es ih =>
    obtain ⟨⟨hlatch, hblank⟩, hrest⟩ := List.forall_mem_cons.1 hdown
    have hone : (Chain.observe nbits prev p ch).vis = ch.vis ∧ (Chain.observe nbits prev p ch).oe = true := by
      simp [Chain.observe, hlatch, hblank]
    obtain ⟨hvis, hoe'⟩ := ih (prev := p) hrest hone.2
    exact ⟨hvis.trans hone.1, hoe'⟩

/-- The chain's register after the bits, first sent first (R159). -/
def Chain.shiftIn (nbits : Nat) (bits : List Bool) (sr : Nat) : Nat :=
  bits.foldl (fun x d => (2 * x + d.toNat) % 2 ^ nbits) sr

/-- The three entries of a bit shift it in once, at the clock's rise, and latch nothing. -/
theorem Chain.observeAll_bitTrace (nbits : Nat) (prev : Pins) (d : Bool) (ch : Chain) :
    Chain.observeAll nbits prev (bitTrace d) ch =
      { sr := (2 * ch.sr + d.toNat) % 2 ^ nbits, vis := ch.vis, oe := true } := by
  simp [bitTrace, Chain.observeAll, Chain.observe, Chain.shift]

theorem Chain.observeAll_shiftEntries (nbits : Nat) (prev : Pins) (bits : List Bool) (ch : Chain) :
    (Chain.observeAll nbits prev (bits.flatMap bitTrace) ch).sr = Chain.shiftIn nbits bits ch.sr ∧
      (Chain.observeAll nbits prev (bits.flatMap bitTrace) ch).vis = ch.vis := by
  induction bits generalizing prev ch with
  | nil => exact ⟨rfl, rfl⟩
  | cons d bits ih =>
    rw [List.flatMap_cons, Chain.observeAll_append, Chain.observeAll_bitTrace]
    exact ih _ _

/-- The last bits shifted in stand in the register, the latest at bit 0. -/
theorem Chain.getElem?_reverse_of_shiftIn {nbits : Nat} (bits : List Bool) (sr : Nat) {i : Nat} (hi : i < nbits)
    (hlen : i < bits.length) : bits.reverse[i]? = some ((Chain.shiftIn nbits bits sr).testBit i) := by
  induction bits using List.reverseRecOn generalizing i with
  | nil => simp at hlen
  | append_singleton bits d ih =>
    have hlast : Chain.shiftIn nbits (bits ++ [d]) sr = (2 * Chain.shiftIn nbits bits sr + d.toNat) % 2 ^ nbits := by
      simp [Chain.shiftIn]
    rw [List.reverse_append, hlast, Nat.testBit_mod_two_pow, decide_eq_true hi, Bool.true_and]
    cases i with
    | zero => cases d <;> simp [Nat.testBit_zero, Nat.add_mod]
    | succ i =>
      have hhalf : (2 * Chain.shiftIn nbits bits sr + d.toNat) / 2 = Chain.shiftIn nbits bits sr := by
        cases d <;> simp; omega
      rw [Nat.testBit_succ, hhalf]
      simpa using ih (i := i) (by omega) (by simpa using hlen)

/-! ### What the chain holds after the bits of a frame -/

/-- Bit `NBITS-1-n` of the register is bit `n` of the frame (R160). -/
theorem frameBits_getElem?_eq_testBit (s : State) (sr : Nat) {n : Nat} (hn : n < s.build.nbits) :
    (frameBits s)[n]? =
      some ((Chain.shiftIn s.build.nbits (frameBits s) sr).testBit (s.build.nbits - 1 - n)) := by
  have hlen : (frameBits s).length = s.build.nbits := frameBits_length s
  rw [← Chain.getElem?_reverse_of_shiftIn _ _ (by omega) (by omega), List.getElem?_reverse (by omega), hlen]
  congr 1
  omega

/-- Each cell is found in the register at its place (R160). -/
theorem cellOf_shiftIn (s : State) (sr : Nat) {c : Nat} (hc : c < s.build.nch) (k : Component) :
    cellOf (Chain.shiftIn s.build.nbits (frameBits s) sr) c k = s.cell c k := by
  have hk := k.index_lt
  refine BitVec.eq_of_getLsbD_eq fun b hb => ?_
  have hsent := frameBits_getElem?_eq_testBit s sr (bitNumber_lt hc k b)
  have hplace : s.build.nbits - 1 - bitNumber s.build.nch c k b = 36 * c + 12 * (2 - k.index) + b := by
    simp only [Config.nbits, bitNumber]
    omega
  rw [frameBits_getElem? s hc k hb, hplace, Option.some_inj] at hsent
  rw [hsent, cellOf, BitVec.getLsbD_ofNat, decide_eq_true hb, Bool.true_and, Nat.testBit_div_two_pow, Nat.add_comm]

/-! ### What the chain displays during a frame -/

/-- After the shift entries the latch is down, as it was before them. -/
theorem getLastD_shiftEntries_latch (bits : List Bool) {prev : Pins} (hprev : prev.latch = false) :
    ((bits.flatMap bitTrace).getLastD prev).latch = false := by
  obtain h | h := List.mem_cons.1 (List.getLastD_mem_cons (l := bits.flatMap bitTrace) (a := prev))
  · rw [h, hprev]
  · exact (mem_shiftEntries h).1

theorem xmitTrace_getLastD (bits : List Bool) (prev : Pins) :
    (xmitTrace bits).getLastD prev = ⟨bits.getLastD false, false, false, false⟩ := by
  simp [xmitTrace, strobeTrace, List.getLastD_eq_getLast?]

/-- Up to the last shift entry the frame before stays displayed, with the output enabled (R161). -/
theorem Chain.observeAll_before_strobe (nbits : Nat) (prev : Pins) {bits : List Bool} {k : Nat}
    (hk : k ≤ 3 * bits.length) {ch : Chain} (hoe : ch.oe = true) :
    (Chain.observeAll nbits prev ((xmitTrace bits).take k) ch).vis = ch.vis ∧
      (Chain.observeAll nbits prev ((xmitTrace bits).take k) ch).oe = true := by
  rw [xmitTrace, List.take_append_of_le_length (by rwa [shiftEntries_length])]
  exact Chain.observeAll_of_down nbits (fun _ hp => mem_shiftEntries (List.mem_of_mem_take hp)) hoe

/-- The strobe's first entry latches the bits shifted in and disables the output (R161). -/
theorem Chain.observeAll_strobeAsserted (nbits : Nat) {prev : Pins} (hprev : prev.latch = false) (bits : List Bool)
    (ch : Chain) : Chain.observeAll nbits prev ((xmitTrace bits).take (3 * bits.length + 1)) ch =
      { sr := Chain.shiftIn nbits bits ch.sr, vis := some (Chain.shiftIn nbits bits ch.sr), oe := false } := by
  have htake : (xmitTrace bits).take (3 * bits.length + 1) =
      bits.flatMap bitTrace ++ [⟨bits.getLastD false, false, true, true⟩] := by
    rw [xmitTrace, ← shiftEntries_length, List.take_length_add_append]
    rfl
  have hdown := getLastD_shiftEntries_latch bits hprev
  obtain ⟨hsr, -⟩ := Chain.observeAll_shiftEntries nbits prev bits ch
  simp [htake, Chain.observeAll_concat, Chain.observe, Chain.shift, hdown, hsr, -List.getLastD_eq_getLast?]

/-- The strobe's second entry leaves what the first latched and enables the output (R161). -/
theorem Chain.observeAll_xmitTrace (nbits : Nat) {prev : Pins} (hprev : prev.latch = false) (bits : List Bool)
    (ch : Chain) : Chain.observeAll nbits prev (xmitTrace bits) ch =
      { sr := Chain.shiftIn nbits bits ch.sr, vis := some (Chain.shiftIn nbits bits ch.sr), oe := true } := by
  have hdown := getLastD_shiftEntries_latch bits hprev
  obtain ⟨hsr, -⟩ := Chain.observeAll_shiftEntries nbits prev bits ch
  simp [xmitTrace, strobeTrace, Chain.observeAll_append, Chain.observeAll, Chain.observe, Chain.shift, hdown, hsr,
    -List.getLastD_eq_getLast?]

/-! ### How far the serialiser has come -/

/-- How many entries of the frame have been emitted at a serialiser position; an idle serialiser has emitted all. -/
def Serialiser.entryNumber (nch : Nat) (p : Serialiser) : Nat :=
  match p.mode with
  | .idle => 108 * nch + 2
  | .shift => 3 * bitNumber nch p.ch p.comp p.bit + p.ph
  | .strobe => 108 * nch + p.ph

theorem Serialiser.entryNumber_idle {p : Serialiser} (hm : p.mode = .idle) (nch : Nat) :
    p.entryNumber nch = 108 * nch + 2 := by
  simp [Serialiser.entryNumber, hm]

theorem Serialiser.entryNumber_shift {p : Serialiser} (hm : p.mode = .shift) (nch : Nat) :
    p.entryNumber nch = 3 * bitNumber nch p.ch p.comp p.bit + p.ph := by
  simp [Serialiser.entryNumber, hm]

theorem Serialiser.entryNumber_strobe {p : Serialiser} (hm : p.mode = .strobe) (nch : Nat) :
    p.entryNumber nch = 108 * nch + p.ph := by
  simp [Serialiser.entryNumber, hm]

theorem entryNumber_firstPosition (nch : Nat) : (firstPosition nch).entryNumber nch = 0 := by
  simp [Serialiser.entryNumber, firstPosition, bitNumber, Component.index]

/-- The whole frame has been emitted exactly when the serialiser is idle. -/
theorem Serialiser.entryNumber_eq_all_iff {p : Serialiser} {nch : Nat} (hl : p.legal nch = true) :
    p.entryNumber nch = 108 * nch + 2 ↔ p.mode = .idle := by
  refine ⟨fun h => ?_, fun hm => p.entryNumber_idle hm nch⟩
  cases hm : p.mode with
  | idle => rfl
  | shift =>
    obtain ⟨hch, -, hph⟩ := (Serialiser.legal_shift hm).1 hl
    have hlt := bitNumber_lt hch p.comp p.bit
    rw [p.entryNumber_shift hm] at h
    omega
  | strobe =>
    obtain ⟨-, -, -, hph⟩ := (Serialiser.legal_strobe hm).1 hl
    rw [p.entryNumber_strobe hm] at h
    omega

/-- `BUSY` is set exactly while entries of the frame are still to come. -/
theorem State.Inv.busy_iff_entryNumber {s : State} (hinv : s.Inv) :
    s.stat.busy = true ↔ s.ser.entryNumber s.build.nch ≠ 108 * s.build.nch + 2 :=
  hinv.busy.trans (Serialiser.entryNumber_eq_all_iff hinv.ser).not.symm

/-- Between transmissions the serialiser is idle with its counters 0 (R28, R33). -/
theorem State.Inv.ser_of_ready {s : State} (hinv : s.Inv) (hready : s.stat.busy = false) :
    s.ser = Serialiser.idle := by
  simpa [Serialiser.legal, hinv.idle_of_ready hready] using hinv.ser

/-- Moving on after a bit leads to the next entry: the next bit's first, or the strobe's (R146). -/
theorem entryNumber_advance {p : Serialiser} {nch : Nat} (hm : p.mode = .shift) (hl : p.legal nch = true)
    (hph : p.ph = 2) : (advance p).entryNumber nch = p.entryNumber nch + 1 := by
  obtain ⟨hch, hbit, -⟩ := (Serialiser.legal_shift hm).1 hl
  rw [p.entryNumber_shift hm, hph]
  obtain ⟨hb, h⟩ | ⟨hb, hc, h⟩ | ⟨hb, hc, h⟩ | ⟨hb, hc, hpos, h⟩ | ⟨hb, hc, hlast, h⟩ := advance_cases p
  case inl =>
    simp only [h, Serialiser.entryNumber, hm, bitNumber]
    omega
  case inr.inl | inr.inr.inl | inr.inr.inr.inl =>
    simp only [h, Serialiser.entryNumber, hm, bitNumber, hb, hc, Component.index]
    omega
  case inr.inr.inr.inr =>
    simp only [h, Serialiser.entryNumber, bitNumber, hb, hc, hlast, Component.index]
    omega

/-- In `SHIFT` the next entry is one of the position's bit. -/
theorem xmitTrace_getElem?_of_shift {s : State} (hinv : s.Inv) (hm : s.ser.mode = .shift) :
    (xmitTrace (frameBits s))[s.ser.entryNumber s.build.nch]? = (bitTrace (positionBit s))[s.ser.ph]? := by
  obtain ⟨hch, hbit, hph⟩ := (Serialiser.legal_shift hm).1 hinv.ser
  rw [s.ser.entryNumber_shift hm,
    xmitTrace_getElem?_bit (frameBits_getElem? s hch _ (Nat.lt_succ_of_le hbit)) (Nat.lt_succ_of_le hph)]
  rfl

/-- In `STROBE` the next entry is one of the strobe, with the frame's last bit. -/
theorem xmitTrace_getElem?_of_strobe {s : State} (hinv : s.Inv) (hm : s.ser.mode = .strobe) :
    (xmitTrace (frameBits s))[s.ser.entryNumber s.build.nch]? =
      (strobeTrace ((s.cell 0 .green).getLsbD 0))[s.ser.ph]? := by
  obtain ⟨hnch, -, -⟩ := hinv.build
  rw [s.ser.entryNumber_strobe hm, ← frameBits_getLastD hnch, ← xmitTrace_getElem?_strobe, frameBits_length,
    ← Nat.mul_assoc]

/-! ### A busy step of an invariant state -/

theorem microStep_dataPhase {s : State} (hm : s.ser.mode = .shift) (hph : s.ser.ph = 0) :
    microStep s = .next (dataPhase s) := by
  simp [microStep, hm, hph]

theorem microStep_clockRise {s : State} (hm : s.ser.mode = .shift) (hph : s.ser.ph = 1) :
    microStep s = .next (clockRise s) := by
  simp [microStep, hm, hph]

theorem microStep_clockFall {s : State} (hm : s.ser.mode = .shift) (hph : s.ser.ph = 2) :
    microStep s = .next (clockFall s) := by
  simp [microStep, hm, hph]

theorem microStep_strobeAssert {s : State} (hm : s.ser.mode = .strobe) (hph : s.ser.ph = 0) :
    microStep s = .next (strobeAssert s) := by
  simp [microStep, hm, hph]

theorem microStep_strobeRelease {s : State} (hm : s.ser.mode = .strobe) (hph : s.ser.ph = 1) :
    microStep s = .next (strobeRelease s) := by
  simp [microStep, hm, hph]

/-- The state after a step with `RESET` released that emits the pins `p`, the serialiser and `BUSY` as given. -/
def State.sendEntry (p : Pins) (ser : Serialiser) (busy : Bool) (s : State) : State :=
  State.emit { s.sampleReset false with pins := p, ser := ser, stat := { s.stat with busy := busy } }

section BusyStep

variable {s : State} (hinv : s.Inv) (hr : s.resetLevel = false)
include hinv hr

/-- A micro-step that moves the link and then emits is a step that sends its entry. -/
theorem step_eq_sendEntry {u : State} {p : Pins} {ser : Serialiser} {busy : Bool} (hm : s.ser.mode ≠ .idle)
    (hmicro : microStep (s.sampleReset false) = .next u.emit) (hmoves : (s.sampleReset false).MovesLink u)
    (hp : u.pins = p) (hser : u.ser = ser) (hb : u.stat.busy = busy) :
    step s = .next (s.sendEntry p ser busy) := by
  subst hp hser hb
  rw [step_of_busy hr (hinv.busy.2 hm), hmicro, hmoves]
  rfl

theorem step_dataPhase (hm : s.ser.mode = .shift) (hph : s.ser.ph = 0) :
    step s = .next (s.sendEntry ⟨positionBit s, false, false, false⟩ { s.ser with ph := 1 } true) := by
  obtain ⟨hsclk, hlatch, hblank, -⟩ := (State.pinsOk_shift hm).1 hinv.pins
  have hne : s.ser.mode ≠ .idle := by simp [hm]
  have hpins : { s.pins with sdata := positionBit s } = ⟨positionBit s, false, false, false⟩ := by
    simp [hsclk, hph, hlatch, hblank]
  exact step_eq_sendEntry hinv hr hne (microStep_dataPhase hm hph) rfl hpins rfl (hinv.busy.2 hne)

theorem step_clockRise (hm : s.ser.mode = .shift) (hph : s.ser.ph = 1) :
    step s = .next (s.sendEntry ⟨positionBit s, true, false, false⟩ { s.ser with ph := 2 } true) := by
  obtain ⟨-, hlatch, hblank, hdata⟩ := (State.pinsOk_shift hm).1 hinv.pins
  have hne : s.ser.mode ≠ .idle := by simp [hm]
  have hpins : { s.pins with sclk := true } = ⟨positionBit s, true, false, false⟩ := by
    simp [hdata hph.ge, hlatch, hblank]
  exact step_eq_sendEntry hinv hr hne (microStep_clockRise hm hph) rfl hpins rfl (hinv.busy.2 hne)

theorem step_clockFall (hm : s.ser.mode = .shift) (hph : s.ser.ph = 2) :
    step s = .next (s.sendEntry ⟨positionBit s, false, false, false⟩ (advance s.ser) true) := by
  obtain ⟨-, hlatch, hblank, hdata⟩ := (State.pinsOk_shift hm).1 hinv.pins
  have hne : s.ser.mode ≠ .idle := by simp [hm]
  have hpins : { s.pins with sclk := false } = ⟨positionBit s, false, false, false⟩ := by
    simp [hdata (by omega), hlatch, hblank]
  exact step_eq_sendEntry hinv hr hne (microStep_clockFall hm hph) rfl hpins rfl (hinv.busy.2 hne)

theorem step_strobeAssert (hm : s.ser.mode = .strobe) (hph : s.ser.ph = 0) :
    step s = .next (s.sendEntry ⟨(s.cell 0 .green).getLsbD 0, false, true, true⟩ { s.ser with ph := 1 } true) := by
  obtain ⟨hsclk, -, -, hdata⟩ := (State.pinsOk_strobe hm).1 hinv.pins
  have hne : s.ser.mode ≠ .idle := by simp [hm]
  have hpins : { s.pins with latch := true, blank := true } = ⟨(s.cell 0 .green).getLsbD 0, false, true, true⟩ := by
    simp [hsclk, hdata]
  exact step_eq_sendEntry hinv hr hne (microStep_strobeAssert hm hph) rfl hpins rfl (hinv.busy.2 hne)

theorem step_strobeRelease (hm : s.ser.mode = .strobe) (hph : s.ser.ph = 1) :
    step s = .next (s.sendEntry ⟨(s.cell 0 .green).getLsbD 0, false, false, false⟩ Serialiser.idle false) := by
  obtain ⟨hch, hcomp, hbit, -⟩ := (Serialiser.legal_strobe hm).1 hinv.ser
  obtain ⟨hsclk, -, -, hdata⟩ := (State.pinsOk_strobe hm).1 hinv.pins
  have hpins : { s.pins with latch := false, blank := false } =
      ⟨(s.cell 0 .green).getLsbD 0, false, false, false⟩ := by
    simp [hsclk, hdata]
  have hser : { s.ser with mode := .idle, ph := 0 } = Serialiser.idle := by
    simp [Serialiser.idle, hch, hcomp, hbit]
  exact step_eq_sendEntry hinv hr (by simp [hm]) (microStep_strobeRelease hm hph) rfl hpins hser rfl

/-- What a busy step can be, one case for each micro-step (R144 to R150). -/
theorem busyStep_cases (hb : s.stat.busy = true) :
    (s.ser.mode = .shift ∧ s.ser.ph = 0 ∧
      step s = .next (s.sendEntry ⟨positionBit s, false, false, false⟩ { s.ser with ph := 1 } true)) ∨
    (s.ser.mode = .shift ∧ s.ser.ph = 1 ∧
      step s = .next (s.sendEntry ⟨positionBit s, true, false, false⟩ { s.ser with ph := 2 } true)) ∨
    (s.ser.mode = .shift ∧ s.ser.ph = 2 ∧
      step s = .next (s.sendEntry ⟨positionBit s, false, false, false⟩ (advance s.ser) true)) ∨
    (s.ser.mode = .strobe ∧ s.ser.ph = 0 ∧
      step s =
        .next (s.sendEntry ⟨(s.cell 0 .green).getLsbD 0, false, true, true⟩ { s.ser with ph := 1 } true)) ∨
    (s.ser.mode = .strobe ∧ s.ser.ph = 1 ∧
      step s = .next (s.sendEntry ⟨(s.cell 0 .green).getLsbD 0, false, false, false⟩ Serialiser.idle false)) := by
  obtain ⟨t, ht⟩ := microStep_of_legal hinv.ser (hinv.busy.1 hb)
  obtain ⟨hm, hph, -⟩ | ⟨hm, hph, -⟩ | ⟨hm, hph, -⟩ | ⟨hm, hph, -⟩ | ⟨hm, hph, -⟩ := microStep_cases ht
  · exact .inl ⟨hm, hph, step_dataPhase hinv hr hm hph⟩
  · exact .inr (.inl ⟨hm, hph, step_clockRise hinv hr hm hph⟩)
  · exact .inr (.inr (.inl ⟨hm, hph, step_clockFall hinv hr hm hph⟩))
  · exact .inr (.inr (.inr (.inl ⟨hm, hph, step_strobeAssert hinv hr hm hph⟩)))
  · exact .inr (.inr (.inr (.inr ⟨hm, hph, step_strobeRelease hinv hr hm hph⟩)))

/-- Each busy step sends the entry of the frame that its position counts to, and moves on by one. -/
theorem step_sends (hb : s.stat.busy = true) : ∃ p ser busy, step s = .next (s.sendEntry p ser busy) ∧
    (xmitTrace (frameBits s))[s.ser.entryNumber s.build.nch]? = some p ∧
    ser.entryNumber s.build.nch = s.ser.entryNumber s.build.nch + 1 := by
  obtain ⟨hm, hph, h⟩ | ⟨hm, hph, h⟩ | ⟨hm, hph, h⟩ | ⟨hm, hph, h⟩ | ⟨hm, hph, h⟩ := busyStep_cases hinv hr hb
  case inl | inr.inl =>
    refine ⟨_, _, _, h, by rw [xmitTrace_getElem?_of_shift hinv hm, hph]; rfl, ?_⟩
    simp [Serialiser.entryNumber, hm, hph]
  case inr.inr.inl =>
    refine ⟨_, _, _, h, by rw [xmitTrace_getElem?_of_shift hinv hm, hph]; rfl, ?_⟩
    exact entryNumber_advance hm hinv.ser hph
  case inr.inr.inr.inl | inr.inr.inr.inr =>
    refine ⟨_, _, _, h, by rw [xmitTrace_getElem?_of_strobe hinv hm, hph]; rfl, ?_⟩
    simp [Serialiser.entryNumber, Serialiser.idle, hm, hph]

end BusyStep

/-! ### What a step does to the link -/

/-- A step either leaves the history and the chain, or appends its pins to the history and shows them to the chain
(R40, R158). -/
theorem step_link_cases {s t : State} (h : step s = .next t) : t.build = s.build ∧
    ((t.trace = s.trace ∧ t.chain = s.chain) ∨
      (t.trace = s.trace ++ [t.pins] ∧ t.chain = Chain.observe s.build.nbits s.lastPins t.pins s.chain)) := by
  obtain ⟨-, rfl⟩ | ⟨-, -, h⟩ | ⟨-, -, -, rfl⟩ | ⟨-, -, w, ws, -, h⟩ := step_cases h
  · obtain ⟨-, h⟩ | ⟨-, h⟩ := resetStep_cases s
    · rw [h]
      exact ⟨rfl, .inl ⟨rfl, rfl⟩⟩
    · rw [h]
      exact ⟨rfl, .inr ⟨rfl, rfl⟩⟩
  · obtain ⟨-, -, rfl⟩ | ⟨-, -, rfl⟩ | ⟨-, -, rfl⟩ | ⟨-, -, rfl⟩ | ⟨-, -, rfl⟩ := microStep_cases h
    all_goals exact ⟨rfl, .inr ⟨rfl, rfl⟩⟩
  · exact ⟨rfl, .inl ⟨rfl, rfl⟩⟩
  · obtain ⟨-, htrace, hchain, -, hbuild⟩ := acceptWord_sameLink h
    exact ⟨hbuild, .inl ⟨htrace, hchain⟩⟩

/-- Without a reset and without a transmission no pin moves. -/
theorem step_ready_pins {s t : State} (hr : s.resetLevel = false) (hb : s.stat.busy = false) (h : step s = .next t) :
    t.pins = s.pins := by
  obtain ⟨hreset, -⟩ | ⟨-, hbusy, -⟩ | ⟨-, -, -, rfl⟩ | ⟨-, -, w, ws, -, hword⟩ := step_cases h
  · simp [hreset] at hr
  · simp [hbusy] at hb
  · rfl
  · exact (acceptWord_sameLink hword).1

theorem resetStep_pins (s : State) : (resetStep s).pins = Pins.low := by
  obtain ⟨-, h⟩ | ⟨-, h⟩ := resetStep_cases s <;> rw [h] <;> rfl

/-- `LATCH` rises in the strobe's first micro-step only (R148). -/
theorem mode_strobe_of_latch_rise {s t : State} (hinv : s.Inv) (h : step s = .next t) (hbefore : s.pins.latch = false)
    (hafter : t.pins.latch = true) : s.ser.mode = .strobe := by
  cases hr : s.resetLevel with
  | true =>
    cases (step_of_reset hr).symm.trans h
    simp [resetStep_pins, Pins.low] at hafter
  | false =>
    cases hb : s.stat.busy with
    | false => simp [step_ready_pins hr hb h, hbefore] at hafter
    | true =>
      obtain ⟨-, -, h'⟩ | ⟨-, -, h'⟩ | ⟨-, -, h'⟩ | ⟨hm, -⟩ | ⟨hm, -⟩ := busyStep_cases hinv hr hb
      case inr.inr.inr.inl | inr.inr.inr.inr => exact hm
      all_goals
        cases h'.symm.trans h
        cases hafter

/-- The displayed frame stays but at a rise of the latch, where the shift register is taken over (R161). -/
theorem Chain.observe_vis_cases (nbits : Nat) (prev cur : Pins) (ch : Chain) :
    (Chain.observe nbits prev cur ch).vis = ch.vis ∨
      (prev.latch = false ∧ cur.latch = true ∧
        (Chain.observe nbits prev cur ch).vis = some (Chain.shift nbits prev cur ch.sr)) := by
  cases hp : prev.latch <;> cases hc : cur.latch <;> simp [Chain.observe, hp, hc]

/-- Without a clock the register stays (R159). -/
theorem Chain.shift_of_clock_low {cur : Pins} (h : cur.sclk = false) (nbits : Nat) (prev : Pins) (sr : Nat) :
    Chain.shift nbits prev cur sr = sr := by
  simp [Chain.shift, h]

/-- Showing the present pins to the chain keeps it where the whole history takes it. -/
theorem State.Observed.of_link {s t : State} (h : s.Observed) (hbuild : t.build = s.build)
    (htrace : t.trace = s.trace ++ [t.pins])
    (hchain : t.chain = Chain.observe s.build.nbits s.lastPins t.pins s.chain) : t.Observed := by
  obtain ⟨sr, hsr⟩ := h
  exact ⟨sr, by rw [hchain, hbuild, htrace, Chain.observeAll_concat, ← hsr]; rfl⟩

/-! ### A run of the serialiser -/

/-- In an invariant state the entry before the next one shows the present pins. -/
theorem State.Inv.lastPins {s : State} (hinv : s.Inv) : s.lastPins = s.pins := by
  obtain ⟨hlast, -⟩ := hinv.trace
  simp [State.lastPins, List.getLastD_eq_getLast?, hlast]

theorem State.Inv.sendEntry_eq {s : State} (hinv : s.Inv) (p : Pins) (ser : Serialiser) (busy : Bool) :
    s.sendEntry p ser busy =
      { s with pins := p, ser := ser, stat := { s.stat with busy := busy }, trace := s.trace ++ [p],
               chain := Chain.observe s.build.nbits s.pins p s.chain,
               host := { s.host with resetPin := false, resetIn := s.host.resetIn.tail } } := by
  rw [← hinv.lastPins]
  rfl

/-- `t` is `s` after the serialiser has sent the entries `es`, one a step, with `RESET` released: besides the serialiser
and `BUSY` only the link has moved, and the levels of `RESET` have been sampled. -/
def State.Sends (s : State) (es : List Pins) (t : State) : Prop :=
  t = { s with ser := t.ser, pins := es.getLastD s.pins, stat := { s.stat with busy := t.stat.busy },
               trace := s.trace ++ es, chain := Chain.observeAll s.build.nbits s.pins es s.chain,
               host := { s.host with resetIn := s.host.resetIn.drop es.length } }

theorem State.Sends.nil (s : State) : s.Sends [] s := by
  simp [State.Sends, Chain.observeAll]

theorem State.Sends.concat {s t : State} {es : List Pins} (h : s.Sends es t) (hinv : t.Inv)
    (hrel : s.host.resetPin = false) (p : Pins) (ser : Serialiser) (busy : Bool) :
    s.Sends (es ++ [p]) (t.sendEntry p ser busy) := by
  rw [State.Sends, hinv.sendEntry_eq, h]
  simp [Chain.observeAll_concat, hrel]

theorem State.Sends.ports {s t : State} {es : List Pins} (h : s.Sends es t) :
    t.build = s.build ∧ t.fb = s.fb ∧ t.host.offered = s.host.offered := by
  rw [h]
  exact ⟨rfl, rfl, rfl⟩

theorem State.Sends.link {s t : State} {es : List Pins} (h : s.Sends es t) :
    t.trace = s.trace ++ es ∧ t.chain = Chain.observeAll s.build.nbits s.pins es s.chain := by
  rw [h]
  exact ⟨rfl, rfl⟩

theorem State.Sends.frameBits {s t : State} {es : List Pins} (h : s.Sends es t) : frameBits t = frameBits s := by
  rw [h]
  rfl

theorem State.Sends.quiet {s t : State} {es : List Pins} (h : s.Sends es t) (hq : s.Quiet) : t.Quiet := by
  rw [h]
  exact fun b hb => hq b (List.mem_of_mem_drop hb)

theorem State.Sends.build {s t : State} {es : List Pins} (h : s.Sends es t) : t.build = s.build := by
  rw [h]

/-- From the start of a frame `k` quiet steps send its first `k` entries. -/
theorem run_sends {s : State} (hinv : s.Inv) (hquiet : s.Quiet) (hrel : s.host.resetPin = false)
    (hstart : s.ser.entryNumber s.build.nch = 0) {k : Nat} (hk : k ≤ 108 * s.build.nch + 2) :
    ∃ t, run k s = .next t ∧ t.Inv ∧ t.ser.entryNumber s.build.nch = k ∧
      s.Sends ((xmitTrace (frameBits s)).take k) t := by
  induction k with
  | zero => exact ⟨s, rfl, hinv, hstart, State.Sends.nil s⟩
  | succ k ih =>
    obtain ⟨t, hrun, htinv, hcount, hsent⟩ := ih (by omega)
    have hbusy : t.stat.busy = true := by
      rw [htinv.busy_iff_entryNumber, hsent.build, hcount]
      omega
    obtain ⟨p, ser, busy, hstep, hentry, hnext⟩ := step_sends htinv (hsent.quiet hquiet).resetLevel hbusy
    rw [hsent.frameBits, hsent.build, hcount] at hentry
    rw [hsent.build, hcount] at hnext
    refine ⟨_, ?_, Claims.everyStepKeepsTheInvariant t _ htinv hstep, hnext, ?_⟩
    · rw [run_add hrun, run_succ_of_step hstep, run_zero]
    · rw [List.take_add_one, hentry]
      exact hsent.concat htinv hrel p ser busy

/-- `s` once the host's `XMIT` has been accepted and `ws` are still to come (R91, R141). -/
def xmitAccepted (s : State) (ws : List Word) : State :=
  { Claims.taken s ws with ser := firstPosition s.build.nch, stat := { s.stat with busy := true } }

/-- `XMIT` itself shows the chain nothing, so what the chain sees of a transmission are its entries. -/
theorem chain_of_xmit_sends {s t : State} {ws : List Word} {es : List Pins} (h : (xmitAccepted s ws).Sends es t) :
    t.chain = Chain.observeAll s.build.nbits s.pins es s.chain :=
  h.link.2

/-- The first step of a transmission accepts `XMIT` and touches no pin. -/
theorem step_xmit {s : State} {ws : List Word} (h : Claims.StartsFrame s ws) :
    step s = .next (xmitAccepted s ws) := by
  obtain ⟨-, -, hoffers⟩ := h
  rw [Claims.step_of_offers hoffers]
  exact Claims.acceptWord_of_command (decode_encode .xmit) _

/-- A transmission: `XMIT` is accepted, and `k` further steps send the first `k` entries of the frame. -/
theorem run_xmit {s : State} {ws : List Word} (h : Claims.StartsFrame s ws) {k : Nat}
    (hk : k ≤ 108 * s.build.nch + 2) :
    ∃ t, run (k + 1) s = .next t ∧ t.Inv ∧ t.ser.entryNumber s.build.nch = k ∧
      (xmitAccepted s ws).Sends ((xmitTrace (frameBits s)).take k) t := by
  have hstep := step_xmit h
  obtain ⟨hinv, hquiet, -⟩ := h
  have hquiet' : (xmitAccepted s ws).Quiet := fun b hb => hquiet b (List.mem_of_mem_tail hb)
  rw [run_succ_of_step hstep]
  exact run_sends (Claims.everyStepKeepsTheInvariant s _ hinv hstep) hquiet' rfl (entryNumber_firstPosition _) hk

end Sys2Proof.Machine

namespace Sys2Proof.Claims

open Sys2Proof.Machine

/-! ### The statements -/

/-- Settles O35: the meaning of `XMIT` is the first position of the frame. -/
theorem xmitStartsAtTheLastChannel : Obligations.XmitStartsAtTheLastChannel :=
  fun s => ⟨rfl, rejectsZ_of_mem (by decide) s, rfl⟩

/-- A step that sends an entry is a micro-step to its pins. -/
theorem microStepsTo_of_sendEntry {s : State} {p : Pins} {ser : Serialiser} {busy : Bool}
    (h : step s = .next (s.sendEntry p ser busy)) : MicroStepsTo s p ser busy :=
  ⟨_, h, rfl⟩

theorem nextPosition_eq_advance (p : Serialiser) : nextPosition p = advance p := by
  obtain ⟨hb, h⟩ | ⟨hb, hc, h⟩ | ⟨hb, hc, h⟩ | ⟨hb, hc, hpos, h⟩ | ⟨hb, hc, hlast, h⟩ := advance_cases p
  all_goals simp [nextPosition, *]

/-- Settles O36: in `SHIFT` the latch and the blank are down, and `SDATA` shows the position's bit from the data phase
on. -/
theorem shiftMicroStepsPulseTheClock : Obligations.ShiftMicroStepsPulseTheClock := by
  intro s hinv hr hm d
  obtain ⟨hsclk, hlatch, hblank, -⟩ := (State.pinsOk_shift hm).1 hinv.pins
  refine ⟨fun hph => ⟨by simp [hsclk, hph], hlatch, hblank, ?_⟩, fun hph => ?_, fun hph => ?_⟩
  · exact microStepsTo_of_sendEntry (step_dataPhase hinv hr hm hph)
  · exact microStepsTo_of_sendEntry (step_clockRise hinv hr hm hph)
  · rw [nextPosition_eq_advance]
    exact microStepsTo_of_sendEntry (step_clockFall hinv hr hm hph)

/-- Settles O37: in `STROBE` the clock is down and `SDATA` shows the last bit. -/
theorem strobeMicroStepsLatchAndRelease : Obligations.StrobeMicroStepsLatchAndRelease :=
  fun _ hinv hr hm => ⟨fun hph => microStepsTo_of_sendEntry (step_strobeAssert hinv hr hm hph),
    fun hph => microStepsTo_of_sendEntry (step_strobeRelease hinv hr hm hph)⟩

/-- Settles O38: `n` is the number of the bit that the three quotients name. -/
theorem frameBitsAreInTheSpecifiedOrder : Obligations.FrameBitsAreInTheSpecifiedOrder := by
  refine fun s => ⟨frameBits_length s, fun n hn => ?_⟩
  obtain ⟨k, hk⟩ := Component.exists_index_eq (i := n % 36 / 12) (by omega)
  have hnumber : n = bitNumber s.build.nch (s.build.nch - 1 - n / 36) k (11 - n % 12) := by
    rw [bitNumber, hk]
    omega
  refine ⟨k, by rw [← hk, Component.ofIndex_index], ?_⟩
  rw [← frameBits_getElem? s (by omega) k (by omega), ← hnumber]

/-- Settles O39: three entries a bit, of which one has the clock up, and the two of the strobe. -/
theorem frameHasOneClockPulsePerBitAndOneLatch : Obligations.FrameHasOneClockPulsePerBitAndOneLatch := by
  refine fun s => ⟨xmitTrace_frameBits_length s, ?_, countP_latch_xmitTrace _, fun _ => mem_xmitTrace_ok⟩
  rw [countP_sclk_xmitTrace, frameBits_length]

/-- Once the whole frame is sent the serialiser is idle again and `BUSY` is 0; but for `SDATA`, the history, the chain
and the host's inputs everything is as before the transmission. -/
theorem eq_of_frame_sent {s t : State} {ws : List Word} (h : StartsFrame s ws) (htinv : t.Inv)
    (hcount : t.ser.entryNumber s.build.nch = 108 * s.build.nch + 2)
    (hsent : (xmitAccepted s ws).Sends (xmitTrace (frameBits s)) t) :
    t = { s with pins := { s.pins with sdata := (frameBits s).getLastD false },
                 trace := s.trace ++ xmitTrace (frameBits s), chain := t.chain,
                 host := { offered := ws, resetPin := false,
                           resetIn := s.host.resetIn.drop (108 * s.build.nch + 3) } } := by
  obtain ⟨hinv, -, -, hready, -⟩ := h
  obtain ⟨hsclk, hlatch, hblank⟩ := (State.pinsOk_idle (hinv.idle_of_ready hready)).1 hinv.pins
  have hbuild : t.build = s.build := hsent.build
  have htready : t.stat.busy = false := by
    simpa [hbuild, hcount] using htinv.busy_iff_entryNumber
  have hser : t.ser = s.ser := (htinv.ser_of_ready htready).trans (hinv.ser_of_ready hready).symm
  have hstat : { s.stat with busy := false } = s.stat := by rw [← hready]
  have hpins : { s.pins with sdata := (frameBits s).getLastD false } =
      ⟨(frameBits s).getLastD false, false, false, false⟩ := by simp [hsclk, hlatch, hblank]
  rw [hpins, chain_of_xmit_sends hsent]
  refine hsent.trans ?_
  rw [hser, htready, xmitTrace_getLastD, xmitTrace_frameBits_length]
  simp [xmitAccepted, taken, hstat]

/-- Settles O40: the run is `run_xmit`'s, to its end and to each entry before. -/
theorem transmissionSendsExactlyTheFrame : Obligations.TransmissionSendsExactlyTheFrame := by
  refine fun s ws h => ⟨?whole, fun k hk => ?midway⟩
  case whole =>
    obtain ⟨t, hrun, htinv, hcount, hsent⟩ := run_xmit h le_rfl
    rw [List.take_of_length_le (xmitTrace_frameBits_length s).le] at hsent
    exact ⟨t, hrun, eq_of_frame_sent h htinv hcount hsent⟩
  case midway =>
    obtain ⟨u, hrun, huinv, hcount, hsent⟩ := run_xmit h hk.le
    obtain ⟨hbuild, hfb, hoffered⟩ := hsent.ports
    obtain ⟨htrace, -⟩ := hsent.link
    have hbusy : u.stat.busy = true := by
      rw [huinv.busy_iff_entryNumber, hbuild]
      exact hcount.trans_ne hk.ne
    exact ⟨u, hrun, hbusy, hfb, hoffered, htrace⟩

/-- Settles O42: the bits shift in one by one and push out whatever the register held. -/
theorem chainHoldsTheFrameAfterItsBits : Obligations.ChainHoldsTheFrameAfterItsBits := by
  intro s prev ch _
  obtain ⟨hsr, hvis⟩ := Chain.observeAll_shiftEntries s.build.nbits prev (frameBits s) ch
  simp only [hsr]
  exact ⟨fun n => frameBits_getElem?_eq_testBit s _, fun c k hc => cellOf_shiftIn s _ hc k, hvis⟩

/-- Settles O41: the strobe latches what the bits of the frame have left in the register. -/
theorem transmittedFrameIsDisplayedEndToEnd : Obligations.TransmittedFrameIsDisplayedEndToEnd := by
  intro s ws h
  obtain ⟨u, hurun, -, -, husent⟩ := run_xmit h (k := 108 * s.build.nch + 1) (by omega)
  obtain ⟨t, htrun, htinv, -, htsent⟩ := run_xmit h le_rfl
  have ⟨hinv, _, _, hready, _⟩ := h
  obtain ⟨-, hlatch, hblank⟩ := (State.pinsOk_idle (hinv.idle_of_ready hready)).1 hinv.pins
  have hoe : s.chain.oe = true := by
    obtain ⟨-, -, hoe⟩ := hinv.chain
    simp [hoe, hblank]
  have hlen : 108 * s.build.nch = 3 * (frameBits s).length := by
    rw [frameBits_length]
    omega
  rw [hlen] at husent
  rw [List.take_of_length_le (xmitTrace_frameBits_length s).le] at htsent
  have hu := (chain_of_xmit_sends husent).trans (Chain.observeAll_strobeAsserted _ hlatch _ _)
  have ht := (chain_of_xmit_sends htsent).trans (Chain.observeAll_xmitTrace _ hlatch _ _)
  refine ⟨Chain.shiftIn s.build.nbits (frameBits s) s.chain.sr, t, u, htrun, hurun, congrArg Chain.vis ht,
    congrArg Chain.vis hu, congrArg Chain.oe hu, congrArg Chain.oe ht, ?inRange,
    fun c k hc => cellOf_shiftIn s _ hc k, fun k hk => ?before⟩
  case inRange =>
    obtain ⟨hsr, -, -⟩ := htinv.chain
    rw [ht, htsent.build] at hsr
    exact hsr
  case before =>
    obtain ⟨v, hvrun, -, -, hvsent⟩ := run_xmit h (k := k) (by omega)
    have hv := Chain.observeAll_before_strobe s.build.nbits s.pins (hlen ▸ hk) hoe
    rw [← chain_of_xmit_sends hvsent] at hv
    exact ⟨v, hvrun, hv⟩

/-- Settles O43: without a reset only the data phase moves `SDATA`, and it leaves the clock and the latch down; in every
other micro-step `SDATA` shows its bit before and after. -/
theorem dataIsStableOverClockAndLatch : Obligations.DataIsStableOverClockAndLatch := by
  intro s t hinv hr h hchanged
  cases hb : s.stat.busy with
  | false => exact absurd (congrArg Pins.sdata (step_ready_pins hr hb h)) hchanged
  | true =>
    obtain ⟨hm, hph, h'⟩ | ⟨hm, hph, h'⟩ | ⟨hm, hph, h'⟩ | ⟨hm, -, h'⟩ | ⟨hm, -, h'⟩ := busyStep_cases hinv hr hb
    all_goals cases h'.symm.trans h
    case inl.refl =>
      obtain ⟨hsclk, hlatch, -, -⟩ := (State.pinsOk_shift hm).1 hinv.pins
      exact ⟨by simp [hsclk, hph], rfl, hlatch, rfl⟩
    case inr.inl.refl | inr.inr.inl.refl =>
      obtain ⟨-, -, -, hdata⟩ := (State.pinsOk_shift hm).1 hinv.pins
      exact absurd (hdata (by omega)).symm hchanged
    case inr.inr.inr.inl.refl | inr.inr.inr.inr.refl =>
      obtain ⟨-, -, -, hdata⟩ := (State.pinsOk_strobe hm).1 hinv.pins
      exact absurd hdata.symm hchanged

/-- Settles O44: a changed frame was latched at a rise, which only the strobe's first micro-step makes; the clock is
down under the latch, so the register taken over is the one before the step. -/
theorem displayChangesOnlyAtTheLatchEdge : Obligations.DisplayChangesOnlyAtTheLatchEdge := by
  intro s t hinv h hchanged
  obtain ⟨-, ⟨-, hchain⟩ | ⟨-, hchain⟩⟩ := step_link_cases h
  · exact absurd (congrArg Chain.vis hchain) hchanged
  · rw [hchain, hinv.lastPins] at hchanged
    obtain hsame | ⟨hbefore, hafter, hvis⟩ := Chain.observe_vis_cases s.build.nbits s.pins t.pins s.chain
    · exact absurd hsame hchanged
    · have hok : t.pins.Ok := (everyStepKeepsTheInvariant s t hinv h).pins.ok
      rw [Chain.shift_of_clock_low (hok.2 hafter)] at hvis
      rw [hchain, hinv.lastPins]
      exact ⟨mode_strobe_of_latch_rise hinv h hbefore hafter, hbefore, hafter, hvis⟩

/-- Settles O51: at reset the history is one low entry; a step shows the chain exactly the entry it appends. -/
theorem chainFollowsTheTrace : Obligations.ChainFollowsTheTrace := by
  refine ⟨⟨0, rfl⟩, fun s t hobserved h => ?_⟩
  obtain ⟨hbuild, ⟨htrace, hchain⟩ | ⟨htrace, hchain⟩⟩ := step_link_cases h
  · obtain ⟨sr, hsr⟩ := hobserved
    exact ⟨sr, by rw [hchain, hbuild, htrace, hsr]⟩
  · exact hobserved.of_link hbuild htrace hchain

end Sys2Proof.Claims
end

section
/-! PROOFS of the operand-load statements (spec/42_color_operands.md): the hue loads (R171, R173, R176, R177) and the
unit loads (R172, R174, R175, R178). -/

namespace Sys2Proof.Claims

open Sys2Proof.Machine

/-! ### The two operands as functions of the raw field -/

/-- The sign of the immediate is a multiple of `2 ^ 24`, which the circle of `2 ^ 16` hues does not see (R171). -/
theorem hueOperand_eq_setWidth (imm : BitVec 24) : hueOperand imm = imm.setWidth 16 := by
  have hwrap : ((hueOperand imm).toNat : ℤ) = imm.toInt % 65536 := wrap16_toNat _
  have hsigned := BitVec.toInt_eq_toNat_cond imm
  refine BitVec.eq_of_toNat_eq ?_
  rw [BitVec.toNat_setWidth]
  split_ifs at hsigned <;> omega

/-- The fields up to `0x010000` are the legal values, the other nonnegative ones are too large, the rest are negative
(R172). -/
theorem unitOperand_toNat (imm : BitVec 24) : (unitOperand imm).toNat = clippedValue imm := by
  have hclip : ((unitOperand imm).toNat : ℤ) = max 0 (min 65536 imm.toInt) := clip1_toNat _
  have hsigned := BitVec.toInt_eq_toNat_cond imm
  have hlt := imm.isLt
  unfold clippedValue
  split_ifs at hsigned ⊢ <;> omega

/-! ### The statements -/

/-- Settles O21: each of the three loads the hue operand, which is the low 16 bits of the immediate. -/
theorem hueLoadsWrapAroundTheCircle : Obligations.HueLoadsWrapAroundTheCircle := by
  intro imm s
  rw [← hueOperand_eq_setWidth]
  exact ⟨wrap16_toNat _, wordI_toNat 0x20 imm, wordI_toNat 0x23 imm, wordI_toNat 0x24 imm, rfl, rfl, rfl⟩

/-- Settles O22: each of the three loads the unit operand. -/
theorem unitLoadsClipToUnitInterval : Obligations.UnitLoadsClipToUnitInterval :=
  fun imm _ => ⟨unitOperand imm, unitOperand_toNat imm, clip1_toNat _, wordI_toNat 0x21 imm, wordI_toNat 0x22 imm,
    wordI_toNat 0x25 imm, rfl, rfl, rfl⟩

end Sys2Proof.Claims
end

section
/-! PROOFS of the colour statements (spec/43_color_convert.md): `HSV2RGB` (R186 to R191), `HLERP` (R193 to R197),
`RGB2HSV` (R199 to R202) and the round trip (R203). -/

namespace Sys2Proof.Machine

/-! ### Exact quotients and narrowing (R6) -/

/-- The floor of an exact quotient of integers is the model's division. -/
theorem floor_intCast_div_intCast (n : ℤ) {d : ℤ} (hd : 0 ≤ d) : ⌊(n : ℚ) / d⌋ = n / d := by
  rw [Int.floor_div_cast_of_nonneg hd, Int.floor_intCast]

theorem level_ofInt_toNat {x : ℤ} (h0 : 0 ≤ x) (h1 : x ≤ 4095) : ((BitVec.ofInt 12 x).toNat : ℤ) = x := by
  rw [BitVec.toNat_ofInt]
  omega

/-! ### The terms of `HSV2RGB` (R188) -/

theorem scale_mono {v a b : ℤ} (hv : 0 ≤ v) (hab : a ≤ b) : scale v a ≤ scale v b := by
  refine Int.ediv_le_ediv (by norm_num) ?_
  gcongr

theorem scale_nonneg {v a : ℤ} (hv : 0 ≤ v) (ha : 0 ≤ a) : 0 ≤ scale v a :=
  Int.ediv_nonneg (by positivity) (by norm_num)

/-- `vv` is the term of full scale (R188). -/
theorem scale_full (v : ℤ) : scale v 4294967296 = v * 4095 / 65536 := by
  unfold scale
  omega

/-- The four terms are 12-bit values with `pp` the least and `vv` the greatest (R188). -/
structure Terms.Ordered (t : Terms) : Prop where
  pp_nonneg : 0 ≤ t.pp
  pp_le_qq : t.pp ≤ t.qq
  qq_le_vv : t.qq ≤ t.vv
  pp_le_tt : t.pp ≤ t.tt
  tt_le_vv : t.tt ≤ t.vv
  vv_le : t.vv ≤ 4095

/-- The terms are `scale V` of factors in the same order: `0`, `2^32 - 2^16 S`, `2^32 - f S` or `2^32 - (2^16 - f) S`,
`2^32`. -/
theorem termsOf_ordered {s v f : ℤ} (hs0 : 0 ≤ s) (hs1 : s ≤ 65536) (hv0 : 0 ≤ v) (hv1 : v ≤ 65536) (hf0 : 0 ≤ f)
    (hf1 : f ≤ 65536) : (termsOf s v f).Ordered := by
  have hlow : 0 ≤ f * s := mul_nonneg hf0 hs0
  have hhigh : 0 ≤ (65536 - f) * s := mul_nonneg (by omega) hs0
  have hsum : f * s + (65536 - f) * s = 65536 * s := by ring
  exact {
    pp_nonneg := scale_nonneg hv0 (by omega)
    pp_le_qq := scale_mono hv0 (by omega)
    qq_le_vv := (scale_mono hv0 (by omega)).trans_eq (scale_full v)
    pp_le_tt := scale_mono hv0 (by omega)
    tt_le_vv := (scale_mono hv0 (by omega)).trans_eq (scale_full v)
    vv_le := show v * 4095 / 65536 ≤ 4095 by omega }

theorem termsOfRegs_ordered {r : Regs} (hs : r.s.toNat ≤ 65536) (hv : r.v.toNat ≤ 65536) : (termsOfRegs r).Ordered :=
  termsOf_ordered (by omega) (by omega) (by omega) (by omega) (by omega) (by unfold fractionOf; omega)

/-! ### The colours of a sector (R189) -/

/-- In every sector a colour is one of the four terms. -/
theorem colour_cases (i : ℕ) (t : Terms) :
    (redOf i t = t.vv ∨ redOf i t = t.qq ∨ redOf i t = t.pp ∨ redOf i t = t.tt) ∧
    (greenOf i t = t.vv ∨ greenOf i t = t.qq ∨ greenOf i t = t.pp ∨ greenOf i t = t.tt) ∧
    (blueOf i t = t.vv ∨ blueOf i t = t.qq ∨ blueOf i t = t.pp ∨ blueOf i t = t.tt) := by
  match i with
  | 0 | 1 | 2 | 3 | 4 | _ + 5 => simp [redOf, greenOf, blueOf]

/-- In every sector one colour is `vv`. -/
theorem exists_colour_eq_vv (i : ℕ) (t : Terms) : redOf i t = t.vv ∨ greenOf i t = t.vv ∨ blueOf i t = t.vv := by
  match i with
  | 0 | 1 | 2 | 3 | 4 | _ + 5 => simp [redOf, greenOf, blueOf]

/-- `x` lies between the least and the greatest term. -/
abbrev Terms.Bounds (t : Terms) (x : ℤ) : Prop := t.pp ≤ x ∧ x ≤ t.vv

theorem Terms.Ordered.bounds_of_term {t : Terms} (h : t.Ordered) {x : ℤ}
    (hx : x = t.vv ∨ x = t.qq ∨ x = t.pp ∨ x = t.tt) : t.Bounds x := by
  obtain ⟨-, hpq, hqv, hpt, htv, -⟩ := h
  obtain rfl | rfl | rfl | rfl := hx
  · exact ⟨hpq.trans hqv, le_rfl⟩
  · exact ⟨hpq, hqv⟩
  · exact ⟨le_rfl, hpq.trans hqv⟩
  · exact ⟨hpt, htv⟩

theorem Terms.Ordered.bounds_colours {t : Terms} (h : t.Ordered) (i : ℕ) :
    t.Bounds (redOf i t) ∧ t.Bounds (greenOf i t) ∧ t.Bounds (blueOf i t) :=
  (colour_cases i t).imp h.bounds_of_term (And.imp h.bounds_of_term h.bounds_of_term)

theorem Terms.Ordered.level_toNat {t : Terms} (h : t.Ordered) {x : ℤ} (hx : t.Bounds x) :
    ((BitVec.ofInt 12 x).toNat : ℤ) = x :=
  level_ofInt_toNat (h.pp_nonneg.trans hx.1) (hx.2.trans h.vv_le)

/-- The greatest of the three colours is `vv`. -/
theorem Terms.Ordered.maxOf_colours {t : Terms} (h : t.Ordered) (i : ℕ) :
    maxOf (redOf i t) (greenOf i t) (blueOf i t) = t.vv := by
  obtain ⟨hr, hg, hb⟩ := h.bounds_colours i
  have hvv := exists_colour_eq_vv i t
  unfold maxOf
  omega

/-- What `HSV2RGB` answers on legal operands: the colours of the sector, without loss, and nothing else (R186). -/
theorem exec_hsv2rgb {s : State} (hs : s.regs.s.toNat ≤ 65536) (hv : s.regs.v.toNat ≤ 65536) :
    ∃ t, exec .hsv2rgb s = .next t ∧
      t = { s with regs := { s.regs with r := t.regs.r, g := t.regs.g, b := t.regs.b } } ∧
      (t.regs.r.toNat : ℤ) = redOf (sectorOf s.regs.h) (termsOfRegs s.regs) ∧
      (t.regs.g.toNat : ℤ) = greenOf (sectorOf s.regs.h) (termsOfRegs s.regs) ∧
      (t.regs.b.toNat : ℤ) = blueOf (sectorOf s.regs.h) (termsOfRegs s.regs) := by
  have hordered := termsOfRegs_ordered hs hv
  obtain ⟨hr, hg, hb⟩ := hordered.bounds_colours (sectorOf s.regs.h)
  exact ⟨_, rfl, rfl, hordered.level_toNat hr, hordered.level_toNat hg, hordered.level_toNat hb⟩

end Sys2Proof.Machine

namespace Sys2Proof.Claims

open Sys2Proof.Machine

/-! ### The exact conversion (R191) -/

/-- `scale` of a factor that stands for `x` is the floor of the exact term (R188). -/
theorem scale_eq_floor (v : ℕ) {a : ℤ} {x : ℚ} (ha : a = 4294967296 * x) : scale v a = ⌊4095 * (realOf v * x)⌋ := by
  have hexact : 4095 * (realOf v * x) = ((v * a * 4095 : ℤ) : ℚ) / (281474976710656 : ℤ) := by
    push_cast
    rw [ha, realOf]
    ring
  rw [hexact, floor_intCast_div_intCast _ (by norm_num), scale]

/-- The whole part of `6 h` is below 6, so the sector is not reduced. -/
theorem floor_six_mul_realOf (h : Hue) : ⌊realOf h.toNat * 6⌋ = sectorOf h := by
  have hlt := h.isLt
  have hexact : realOf h.toNat * 6 = ((6 * h.toNat : ℤ) : ℚ) / (65536 : ℤ) := by
    unfold realOf
    push_cast
    ring
  rw [hexact, floor_intCast_div_intCast _ (by norm_num), sectorOf]
  push_cast
  omega

/-- The fraction `f` stands for the rest of `6 h` (R187). -/
theorem six_mul_realOf_sub_sectorOf (h : Hue) : realOf h.toNat * 6 - sectorOf h = realOf (fractionOf h) := by
  have hlt := h.isLt
  have hsplit : 6 * h.toNat = 65536 * sectorOf h + fractionOf h := by
    unfold sectorOf fractionOf
    omega
  have hcast : (6 * h.toNat : ℚ) = 65536 * sectorOf h + fractionOf h := mod_cast hsplit
  unfold realOf
  linarith

theorem sectorOf_lt (h : Hue) : sectorOf h < 6 := Nat.mod_lt _ (by decide)

section
variable (s v f : ℕ)

theorem vv_eq_floor : (termsOf s v f).vv = ⌊4095 * realOf v⌋ := by
  simpa [termsOf, scale_full] using scale_eq_floor v (a := 4294967296) (x := 1) (by norm_num)

theorem pp_eq_floor : (termsOf s v f).pp = ⌊4095 * (realOf v * (1 - realOf s))⌋ :=
  scale_eq_floor v (by unfold realOf; push_cast; ring)

theorem qq_eq_floor : (termsOf s v f).qq = ⌊4095 * (realOf v * (1 - realOf f * realOf s))⌋ :=
  scale_eq_floor v (by unfold realOf; push_cast; ring)

theorem tt_eq_floor : (termsOf s v f).tt = ⌊4095 * (realOf v * (1 - (1 - realOf f) * realOf s))⌋ :=
  scale_eq_floor v (by unfold realOf; push_cast; ring)

end

/-- Sector by sector, the colours are the floors of the exact conversion's. -/
theorem colours_eq_floor_sixSector (r : Regs) :
    redOf (sectorOf r.h) (termsOfRegs r) =
      ⌊4095 * (sixSector (realOf r.h.toNat) (realOf r.s.toNat) (realOf r.v.toNat)).1⌋ ∧
    greenOf (sectorOf r.h) (termsOfRegs r) =
      ⌊4095 * (sixSector (realOf r.h.toNat) (realOf r.s.toNat) (realOf r.v.toNat)).2.1⌋ ∧
    blueOf (sectorOf r.h) (termsOfRegs r) =
      ⌊4095 * (sixSector (realOf r.h.toNat) (realOf r.s.toNat) (realOf r.v.toNat)).2.2⌋ := by
  have hi := sectorOf_lt r.h
  have hf := six_mul_realOf_sub_sectorOf r.h
  simp only [sixSector, floor_six_mul_realOf, Int.cast_natCast, hf, termsOfRegs]
  generalize sectorOf r.h = i at hi
  interval_cases i <;> simp [redOf, greenOf, blueOf, vv_eq_floor, pp_eq_floor, qq_eq_floor, tt_eq_floor]

/-! ### `HSV2RGB`: the statements -/

/-- Settles O24: `termsOf_ordered`, and `vv` is the term of full scale. -/
theorem hsvTermsAreOrderedAndInRange : Obligations.HsvTermsAreOrderedAndInRange := by
  intro s v f hs0 hs1 hv0 hv1 hf0 hf1
  obtain ⟨hp, hpq, hqv, hpt, htv, hv⟩ := termsOf_ordered hs0 hs1 hv0 hv1 hf0 hf1.le
  exact ⟨hp, hpq, hqv, hpt, htv, hv, (scale_full v).symm⟩

/-- Settles O23: the registers hold the colours without loss, and these are the exact floors. -/
theorem hsv2rgbIsTheFloorOfTheExactConversion : Obligations.Hsv2rgbIsTheFloorOfTheExactConversion := by
  intro s hs hv
  obtain ⟨t, ht, hframe, hr, hg, hb⟩ := exec_hsv2rgb hs hv
  obtain ⟨hred, hgreen, hblue⟩ := colours_eq_floor_sixSector s.regs
  exact ⟨t, ht, hframe, hr.trans hred, hg.trans hgreen, hb.trans hblue⟩

theorem vv_termsOfRegs (r : Regs) : (termsOfRegs r).vv = r.v.toNat * 4095 / 65536 := rfl

/-- Without saturation the least term is the greatest (R190 (a)). -/
theorem pp_termsOfRegs_of_grey {r : Regs} (h : r.s = 0) : (termsOfRegs r).pp = (termsOfRegs r).vv := by
  simp [termsOfRegs, termsOf, h, scale_full]

/-- Settles O25: every colour lies between `pp` and `vv`; these meet when `S = 0`, and `vv` is 0 when `V = 0`. -/
theorem hsv2rgbGreyBlackAndBrightnessBound : Obligations.Hsv2rgbGreyBlackAndBrightnessBound := by
  intro s hs hv
  obtain ⟨t, ht, -, hr, hg, hb⟩ := exec_hsv2rgb hs hv
  have hordered := termsOfRegs_ordered hs hv
  obtain ⟨hred, hgreen, hblue⟩ := hordered.bounds_colours (sectorOf s.regs.h)
  rw [← hr] at hred
  rw [← hg] at hgreen
  rw [← hb] at hblue
  have hpp := hordered.pp_nonneg
  have hvv := vv_termsOfRegs s.regs
  refine ⟨t, ht, fun hgrey => ?grey, fun hblack => ?black, by omega, by omega, by omega⟩
  case grey =>
    have hmeet := pp_termsOfRegs_of_grey hgrey
    exact ⟨by omega, BitVec.eq_of_toNat_eq (by omega), BitVec.eq_of_toNat_eq (by omega)⟩
  case black =>
    have hzero : s.regs.v.toNat = 0 := by simp [hblack]
    have hdark : ∀ x : Level, x.toNat ≤ (termsOfRegs s.regs).vv → x = 0 := fun x hx =>
      BitVec.eq_of_toNat_eq (show x.toNat = 0 by omega)
    exact ⟨hdark _ hred.2, hdark _ hgreen.2, hdark _ hblue.2⟩

end Sys2Proof.Claims

namespace Sys2Proof.Machine

/-! ### The path of `HLERP` (R193 to R195) -/

theorem lerpHue_toNat (ha d fr : ℤ) : ((lerpHue ha d fr).toNat : ℤ) = (ha + d * fr / 65536) % 65536 :=
  wrap16_toNat _

theorem travelled_zero (d : ℤ) : d * 0 / 65536 = 0 := by simp

theorem travelled_full (d : ℤ) : d * 65536 / 65536 = d := Int.mul_ediv_cancel d (by norm_num)

section
variable {d : ℤ} {fr fr' : ℕ} (hle : fr ≤ fr') (hfr' : fr' ≤ 65536)
include hle hfr'

/-- On an upward path the distance travelled grows with the progress, from 0 to `d`. -/
theorem travelled_up (hd : 0 ≤ d) :
    0 ≤ d * fr / 65536 ∧ d * fr / 65536 ≤ d * fr' / 65536 ∧ d * fr' / 65536 ≤ d := by
  have hmono {x y : ℤ} (hxy : x ≤ y) : d * x / 65536 ≤ d * y / 65536 :=
    Int.ediv_le_ediv (by norm_num) (mul_le_mul_of_nonneg_left hxy hd)
  exact ⟨(travelled_zero d).symm.trans_le (hmono (by omega)), hmono (by omega),
    (hmono (by omega)).trans_eq (travelled_full d)⟩

/-- On a downward path it falls, from 0 to `d`. -/
theorem travelled_down (hd : d ≤ 0) :
    d ≤ d * fr' / 65536 ∧ d * fr' / 65536 ≤ d * fr / 65536 ∧ d * fr / 65536 ≤ 0 := by
  have hanti {x y : ℤ} (hxy : x ≤ y) : d * y / 65536 ≤ d * x / 65536 :=
    Int.ediv_le_ediv (by norm_num) (mul_le_mul_of_nonpos_left hxy hd)
  exact ⟨(travelled_full d).symm.trans_le (hanti (by omega)), hanti (by omega),
    (hanti (by omega)).trans_eq (travelled_zero d)⟩

end

end Sys2Proof.Machine

namespace Sys2Proof.Claims

open Sys2Proof.Machine

theorem crosses_iff_crossing (s : State) : crosses s.build s.regs.ha s.regs.hb = true ↔ Crossing s := by
  simp [crosses, Crossing, and_assoc]

/-- What `HLERP` answers in every state: the hue along the path, the path in `WRAP`, and nothing else. -/
theorem exec_hlerp (s : State) :
    ∃ t d, exec .hlerp s = .next t ∧ IsDelta s d ∧
      t = { s with regs := { s.regs with h := t.regs.h }, stat := { s.stat with wrap := t.stat.wrap } } ∧
      (t.regs.h.toNat : ℤ) = (s.regs.ha.toNat + d * s.regs.fr.toNat / 65536) % 65536 ∧
      (t.stat.wrap = true ↔ Crossing s) := by
  have hcross := crosses_iff_crossing s
  refine ⟨_, deltaOf s.regs.ha.toNat s.regs.hb.toNat (crosses s.build s.regs.ha s.regs.hb), rfl, ?delta, rfl,
    lerpHue_toNat .., hcross⟩
  case delta =>
    refine ⟨fun hdirect => ?_, fun hwrap hup => ?_, fun hwrap hdown => ?_⟩
    · simp [deltaOf, mt hcross.1 hdirect]
    · simp [deltaOf, hcross.2 hwrap, hup]
    · simp [deltaOf, hcross.2 hwrap, hdown.not_gt]

/-- The three paths of a legal build: direct, and the wrap path downward through 0 or upward through 65535, with the
anchors on the two sides of the band. -/
theorem path_cases {s : State} {d : ℤ} (hlegal : s.build.Legal) (hd : IsDelta s d) :
    (¬Crossing s ∧ d = s.regs.hb.toNat - s.regs.ha.toNat) ∨
    (Crossing s ∧ s.regs.ha.toNat ≤ s.build.bandLo.toNat ∧ s.build.bandHi.toNat ≤ s.regs.hb.toNat ∧
      d = s.regs.hb.toNat - s.regs.ha.toNat - 65536) ∨
    (Crossing s ∧ s.regs.hb.toNat ≤ s.build.bandLo.toNat ∧ s.build.bandHi.toNat ≤ s.regs.ha.toNat ∧
      d = s.regs.hb.toNat - s.regs.ha.toNat + 65536) := by
  obtain ⟨-, -, hband⟩ := hlegal
  obtain ⟨hdirect, hup, hdown⟩ := hd
  by_cases hcross : Crossing s
  · have ⟨_, hlo, hhi⟩ := hcross
    obtain h | h : s.regs.ha.toNat < s.regs.hb.toNat ∨ s.regs.hb.toNat < s.regs.ha.toNat := by omega
    · exact .inr (.inl ⟨hcross, by omega, by omega, hup hcross h⟩)
    · exact .inr (.inr ⟨hcross, by omega, by omega, hdown hcross h⟩)
  · exact .inl ⟨hcross, hdirect hcross⟩

/-- The band lies between anchors that cross it, so they differ (R194). -/
theorem ha_ne_hb_of_crossing {s : State} (hlegal : s.build.Legal) (hcross : Crossing s) : s.regs.ha ≠ s.regs.hb := by
  obtain ⟨-, -, hband⟩ := hlegal
  obtain ⟨-, hlo, hhi⟩ := hcross
  intro h
  rw [h] at hlo hhi
  omega

/-- The wrap path is the rest of the circle, which leaves the band out (R195). -/
theorem abs_delta_of_crossing {s : State} {d : ℤ} (hlegal : s.build.Legal) (hd : IsDelta s d) (hcross : Crossing s) :
    |d| = 65536 - |(s.regs.hb.toNat : ℤ) - s.regs.ha.toNat| ∧
      |d| ≤ 65536 - ((s.build.bandHi.toNat : ℤ) - s.build.bandLo.toNat) := by
  have hha := s.regs.ha.isLt
  have hhb := s.regs.hb.isLt
  have ⟨_, _, hband⟩ := hlegal
  obtain ⟨hdirect, -⟩ | ⟨-, hlo, hhi, rfl⟩ | ⟨-, hlo, hhi, rfl⟩ := path_cases hlegal hd
  · exact absurd hcross hdirect
  · rw [abs_of_nonpos (by omega), abs_of_nonneg (by omega)]
    omega
  · rw [abs_of_nonneg (by omega), abs_of_nonpos (by omega)]
    omega

/-! ### `HLERP`: the statements -/

/-- Settles O26: `exec_hlerp`, with the length of the wrap path. -/
theorem hlerpInterpolatesAlongTheChosenPath : Obligations.HlerpInterpolatesAlongTheChosenPath := by
  intro s hlegal
  obtain ⟨t, d, ht, hd, hframe, hhue, hwrap⟩ := exec_hlerp s
  have hfloor : ⌊(d : ℚ) * s.regs.fr.toNat / 65536⌋ = d * s.regs.fr.toNat / 65536 :=
    mod_cast floor_intCast_div_intCast (d * s.regs.fr.toNat) (d := 65536) (by norm_num)
  exact ⟨rfl, rejectsZ_of_mem (by decide) s, ha_ne_hb_of_crossing hlegal, t, d, ht, hd,
    abs_delta_of_crossing hlegal hd, hframe, by rw [hhue, hfloor], hwrap⟩

/-- Settles O27: nothing is travelled at progress 0 or between equal anchors; at full progress the whole distance is,
which ends at `HB` up to a turn of the circle. -/
theorem hlerpReachesItsAnchors : Obligations.HlerpReachesItsAnchors := by
  intro s hlegal
  obtain ⟨t, d, ht, hd, -, hhue, -⟩ := exec_hlerp s
  have hha := s.regs.ha.isLt
  have hhb := s.regs.hb.isLt
  refine ⟨t, ht, fun hfr => ?start, fun hfr => ?finish, fun heq => ?equal⟩
  case start =>
    have htravelled : d * s.regs.fr.toNat / 65536 = 0 := by
      rw [hfr]
      exact travelled_zero d
    exact BitVec.eq_of_toNat_eq (by omega)
  case finish =>
    have htravelled : d * s.regs.fr.toNat / 65536 = d := by
      rw [hfr]
      exact travelled_full d
    have hpaths := path_cases hlegal hd
    exact BitVec.eq_of_toNat_eq (by omega)
  case equal =>
    have hnone : d = 0 := by
      rw [hd.1 fun hcross => ha_ne_hb_of_crossing hlegal hcross heq, heq, sub_self]
    rw [hnone, zero_mul] at hhue
    exact BitVec.eq_of_toNat_eq (by omega)

/-- Settles O28: the distance travelled lies between 0 and `d`, so before the seam the hue is beyond `HA`, and past it
beyond `HB`, as seen from the band. -/
theorem hlerpWrapPathAvoidsTheBand : Obligations.HlerpWrapPathAvoidsTheBand := by
  intro s hlegal hfr hcross
  obtain ⟨t, d, ht, hd, -, hhue, hwrap⟩ := exec_hlerp s
  have hha := s.regs.ha.isLt
  have hhb := s.regs.hb.isLt
  refine ⟨t, ht, hwrap.2 hcross, ?_⟩
  obtain ⟨hdirect, -⟩ | ⟨-, hlo, hhi, hdown⟩ | ⟨-, hlo, hhi, hup⟩ := path_cases hlegal hd
  · exact absurd hcross hdirect
  · obtain ⟨hfinish, -, hstart⟩ := travelled_down (d := d) le_rfl hfr (by omega)
    omega
  · obtain ⟨hstart, -, hfinish⟩ := travelled_up (d := d) le_rfl hfr (by omega)
    omega

/-- Settles O29: the two distances travelled are in order between 0 and `HB - HA`, so no hue on the way is reduced. -/
theorem hlerpDirectPathIsMonotone : Obligations.HlerpDirectPathIsMonotone := by
  intro s fr hle hfr hdirect
  obtain ⟨t, d, ht, hd, -, hhue, -⟩ := exec_hlerp s
  obtain ⟨u, e, hu, he, -, hhue', -⟩ := exec_hlerp { s with regs := { s.regs with fr := fr } }
  have hha := s.regs.ha.isLt
  have hhb := s.regs.hb.isLt
  have hd : d = s.regs.hb.toNat - s.regs.ha.toNat := hd.1 hdirect
  have hed : e = d := (he.1 hdirect).trans hd.symm
  simp only [hed] at hhue'
  refine ⟨t, u, ht, hu, fun hup => ?up, fun hdown => ?down⟩
  case up =>
    obtain ⟨hstart, hway, hfinish⟩ := travelled_up (d := d) hle hfr (by omega)
    omega
  case down =>
    obtain ⟨hfinish, hway, hstart⟩ := travelled_down (d := d) hle hfr (by omega)
    omega

end Sys2Proof.Claims

namespace Sys2Proof.Machine

/-! ### The formulas of `RGB2HSV` (R200 to R202) -/

/-- On legal levels `DV` holds the quotient without loss (R200). -/
theorem valueOf_toNat {mx : ℤ} (h0 : 0 ≤ mx) (h1 : mx ≤ 4095) : ((valueOf mx).toNat : ℤ) = mx * 65536 / 4095 := by
  rw [valueOf, BitVec.toNat_ofInt]
  omega

/-- With a positive maximum `DS` holds the quotient without loss (R200). -/
theorem saturationOf_toNat {mx dl : ℤ} (hmx : 0 < mx) (h0 : 0 ≤ dl) (h1 : dl ≤ mx) :
    ((saturationOf mx dl).toNat : ℤ) = dl * 65536 / mx := by
  have hlow : 0 ≤ dl * 65536 / mx := Int.ediv_nonneg (by omega) hmx.le
  have hhigh : dl * 65536 / mx ≤ 65536 := Int.ediv_le_of_le_mul hmx (by omega)
  rw [saturationOf, if_neg hmx.ne', BitVec.toNat_ofInt]
  omega

theorem hueOf_toNat {dl : ℤ} (h : dl ≠ 0) (r g b mx : ℤ) :
    ((hueOf r g b mx dl).toNat : ℤ) = sixthsOf r g b mx dl * 65536 / (6 * dl) % 65536 := by
  rw [hueOf, if_neg h]
  exact wrap16_toNat _

/-- The sixths of a turn, written as a base and a rest (R202). -/
theorem sixthsOf_eq_base_add (r g b mx dl : ℤ) :
    sixthsOf r g b mx dl = (if mx = r then 0 else if mx = g then 2 else 4) * dl +
      (if mx = r then g - b else if mx = g then b - r else r - g) := by
  unfold sixthsOf
  split_ifs <;> ring

/-- The maximum of three levels and their spread are in range. -/
theorem maxOf_range (r g b : Level) :
    0 ≤ maxOf r.toNat g.toNat b.toNat ∧ maxOf r.toNat g.toNat b.toNat ≤ 4095 ∧
      0 ≤ maxOf r.toNat g.toNat b.toNat - minOf r.toNat g.toNat b.toNat ∧
      0 ≤ minOf r.toNat g.toNat b.toNat := by
  have hr := r.isLt
  have hg := g.isLt
  have hb := b.isLt
  unfold maxOf minOf
  omega

end Sys2Proof.Machine

namespace Sys2Proof.Claims

open Sys2Proof.Machine

/-- Settles O30: each register holds its quotient without loss, and each quotient is the exact floor. -/
theorem rgb2hsvComputesItsFormulas : Obligations.Rgb2hsvComputesItsFormulas := by
  intro s
  obtain ⟨hmx0, hmx1, hdl0, hmn0⟩ := maxOf_range s.regs.r s.regs.g s.regs.b
  refine ⟨rfl, rejectsZ_of_mem (by decide) s, _, rfl, rfl, ?_⟩
  intro r g b mx dl n base
  have hdl1 : dl ≤ mx := sub_le_self _ hmn0
  refine ⟨?value, valueOf_le hmx0 hmx1, fun hmx => if_pos hmx, fun hmx => ?saturation, saturationOf_le hdl0 hdl1,
    fun hdl => ⟨if_pos hdl, decide_eq_false (not_not.2 hdl)⟩, fun hdl => ⟨decide_eq_true hdl, ?hue⟩⟩
  case value =>
    have hfloor : ⌊(mx : ℚ) * 65536 / 4095⌋ = mx * 65536 / 4095 :=
      mod_cast floor_intCast_div_intCast (mx * 65536) (d := 4095) (by norm_num)
    exact (valueOf_toNat hmx0 hmx1).trans hfloor.symm
  case saturation =>
    have hfloor : ⌊(dl : ℚ) * 65536 / mx⌋ = dl * 65536 / mx :=
      mod_cast floor_intCast_div_intCast (dl * 65536) (d := mx) hmx0
    exact (saturationOf_toNat (lt_of_le_of_ne hmx0 (Ne.symm hmx)) hdl0 hdl1).trans hfloor.symm
  case hue =>
    have hfloor : ⌊((base * dl + n : ℤ) : ℚ) * 65536 / (6 * dl)⌋ = (base * dl + n) * 65536 / (6 * dl) :=
      mod_cast floor_intCast_div_intCast ((base * dl + n) * 65536) (d := 6 * dl) (by omega)
    rw [hfloor, ← sixthsOf_eq_base_add]
    exact hueOf_toNat hdl ..

/-- Settles O31: the maximum of the three colours is `vv`, whose quotient back is at most `V`. -/
theorem roundTripNeverExceedsTheValue : Obligations.RoundTripNeverExceedsTheValue := by
  intro s hs hv
  obtain ⟨t, ht, -, hr, hg, hb⟩ := exec_hsv2rgb hs hv
  have hvv := vv_termsOfRegs s.regs
  have hmax : maxOf t.regs.r.toNat t.regs.g.toNat t.regs.b.toNat = (termsOfRegs s.regs).vv := by
    rw [hr, hg, hb, (termsOfRegs_ordered hs hv).maxOf_colours]
  have hdv : ((valueOf (maxOf t.regs.r.toNat t.regs.g.toNat t.regs.b.toNat)).toNat : ℤ) =
      (termsOfRegs s.regs).vv * 65536 / 4095 := by
    rw [hmax, valueOf_toNat (by omega) (by omega)]
  refine ⟨t, _, ht, rfl, ?bound, fun hfull => BitVec.eq_of_toNat_eq ?fullValue⟩
  case bound =>
    change (valueOf _).toNat ≤ _
    omega
  case fullValue =>
    have hv : s.regs.v.toNat = 65536 := by rw [hfull]; rfl
    change (valueOf _).toNat = 65536
    omega

end Sys2Proof.Claims
end

section
/-! PROOFS of the system statements (spec/44_system.md): `NOP` (R216), and the number of steps a program takes
(R219). -/

namespace Sys2Proof.Machine

/-! ### Runs that are not over yet -/

/-- None of the first `n` states of the run from `s` is the end of the run, and the machine answers each of them. -/
def State.GoesOnFor (n : Nat) (s : State) : Prop := ∀ k, k < n → ∃ u, run k s = .next u ∧ ¬u.RunOver

/-- The run from `s` is over after `n` steps and not before. -/
def State.EndsAfter (n : Nat) (s : State) : Prop := (∃ t, run n s = .next t ∧ t.RunOver) ∧ s.GoesOnFor n

theorem State.RunOver.endsAfter_zero {s : State} (h : s.RunOver) : s.EndsAfter 0 :=
  ⟨⟨s, rfl, h⟩, fun _ hk => absurd hk (Nat.not_lt_zero _)⟩

/-- A run that is not over within `m` steps ends `m` steps later than what follows them. -/
theorem State.EndsAfter.prepend {m n : Nat} {s t : State} (hrun : run m s = .next t) (hgoes : s.GoesOnFor m)
    (hend : t.EndsAfter n) : s.EndsAfter (m + n) := by
  obtain ⟨⟨u, hu, hover⟩, hbefore⟩ := hend
  refine ⟨⟨u, (run_add hrun).trans hu, hover⟩, fun k hk => ?_⟩
  obtain hlt | hge := lt_or_ge k m
  · exact hgoes k hlt
  · obtain ⟨j, rfl⟩ := Nat.exists_eq_add_of_le hge
    rw [run_add hrun]
    exact hbefore j (by omega)

theorem not_runOver_of_offered {s : State} {w : Word} {ws : List Word} (h : s.host.offered = w :: ws) : ¬s.RunOver :=
  fun hover => by simp [hover.1] at h

theorem not_runOver_of_busy {s : State} (h : s.stat.busy = true) : ¬s.RunOver :=
  fun hover => by simp [hover.2] at h

/-! ### The words of a program, one by one -/

/-- `s` meets the invariant between two words of a program on a build of `nch` channels: nothing is transmitting, `ws`
is still offered and no reset is to come. -/
structure State.ReadyFor (nch : Nat) (ws : List Word) (s : State) : Prop where
  inv : s.Inv
  quiet : s.Quiet
  ready : s.stat.busy = false
  offered : s.host.offered = ws
  nch_eq : s.build.nch = nch

theorem State.ReadyFor.offers {nch : Nat} {w : Word} {ws : List Word} {s : State} (h : s.ReadyFor nch (w :: ws)) :
    Claims.Offers s w ws :=
  ⟨h.quiet.resetLevel, h.ready, h.offered⟩

/-- Only the word `XMIT` starts a transmission: another command leaves `BUSY`, and so does a rejected word (R141,
R229). -/
theorem acceptWord_keeps_busy {w : Word} {s t : State} (h : acceptWord w s = .next t) (hw : w ≠ encode .xmit) :
    t.stat.busy = s.stat.busy := by
  obtain ⟨i, hdecode, h'⟩ | ⟨c, -, h'⟩ := acceptWord_cases w s
  · have hi : i ≠ .xmit := by
      rintro rfl
      exact hw (encode_of_decode hdecode).symm
    exact (exec_keeps_ser_busy (h'.symm.trans h) hi).2
  · cases h'.symm.trans h
    exact raiseCmdError_busy ..

/-- The steps that one offered word takes: its acceptance and, for `XMIT`, the entries of the frame (R91, R151). -/
def wordSteps (nch : Nat) (w : Word) : Nat := if w = encode .xmit then 108 * nch + 3 else 1

section Word

variable {nch : Nat} {w : Word} {ws : List Word} {s : State} (h : s.ReadyFor nch (w :: ws))
include h

/-- A word other than `XMIT` is over with its acceptance. -/
theorem State.ReadyFor.run_other (hw : w ≠ encode .xmit) :
    s.GoesOnFor 1 ∧ ∃ t, run 1 s = .next t ∧ t.ReadyFor nch ws := by
  refine ⟨fun k hk => ?goesOn, ?accepted⟩
  case goesOn =>
    obtain rfl : k = 0 := by omega
    exact ⟨s, rfl, not_runOver_of_offered h.offered⟩
  case accepted =>
    obtain ⟨t, haccept⟩ := acceptWord_answers w (Claims.taken s ws)
    have hstep : step s = .next t := (Claims.step_of_offers h.offers).trans haccept
    obtain ⟨-, -, -, hhost, hbuild⟩ := acceptWord_sameLink haccept
    refine ⟨t, run_succ_of_step hstep 0, ?_⟩
    exact
      { inv := Claims.everyStepKeepsTheInvariant s t h.inv hstep
        quiet := by
          rw [State.Quiet, hhost]
          exact fun b hb => h.quiet b (List.mem_of_mem_tail hb)
        ready := (acceptWord_keeps_busy haccept hw).trans h.ready
        offered := congrArg HostSide.offered hhost
        nch_eq := (congrArg Config.nch hbuild).trans h.nch_eq }

/-- `XMIT` is over once its whole frame is sent; until then `BUSY` is set. -/
theorem State.ReadyFor.run_xmit (hw : w = encode .xmit) :
    s.GoesOnFor (108 * nch + 3) ∧ ∃ t, run (108 * nch + 3) s = .next t ∧ t.ReadyFor nch ws := by
  subst hw
  obtain rfl := h.nch_eq
  have hframe : Claims.StartsFrame s ws := ⟨h.inv, h.quiet, h.offers⟩
  refine ⟨fun k hk => ?goesOn, ?sent⟩
  case goesOn =>
    cases k with
    | zero => exact ⟨s, rfl, not_runOver_of_offered h.offered⟩
    | succ k =>
      obtain ⟨-, hmidway⟩ := Claims.transmissionSendsExactlyTheFrame s ws hframe
      obtain ⟨u, hrun, hbusy, -⟩ := hmidway k (by omega)
      exact ⟨u, hrun, not_runOver_of_busy hbusy⟩
  case sent =>
    obtain ⟨t, hrun, htinv, hcount, hsent⟩ := Machine.run_xmit hframe le_rfl
    obtain ⟨hbuild, -, hoffered⟩ := hsent.ports
    refine ⟨t, hrun, ?_⟩
    exact
      { inv := htinv
        quiet := hsent.quiet fun b hb => h.quiet b (List.mem_of_mem_tail hb)
        ready := by simpa [hbuild, xmitAccepted, Claims.taken, hcount] using htinv.busy_iff_entryNumber
        offered := hoffered
        nch_eq := congrArg Config.nch hbuild }

/-- Every offered word takes its `wordSteps`, and then the machine is ready for the rest. -/
theorem State.ReadyFor.run_word :
    s.GoesOnFor (wordSteps nch w) ∧ ∃ t, run (wordSteps nch w) s = .next t ∧ t.ReadyFor nch ws := by
  by_cases hw : w = encode .xmit
  · rw [wordSteps, if_pos hw]
    exact h.run_xmit hw
  · rw [wordSteps, if_neg hw]
    exact h.run_other hw

end Word

/-! ### Whole programs -/

/-- The steps that the program `ws` takes, as R219 counts them. -/
def programSteps (nch : Nat) (ws : List Word) : Nat := ws.length + ws.count (encode .xmit) * (108 * nch + 2)

theorem programSteps_nil (nch : Nat) : programSteps nch [] = 0 := by simp [programSteps]

theorem programSteps_cons (nch : Nat) (w : Word) (ws : List Word) :
    programSteps nch (w :: ws) = wordSteps nch w + programSteps nch ws := by
  by_cases hw : w = encode .xmit
  · simp only [programSteps, wordSteps, hw, if_true, List.length_cons, List.count_cons_self]
    ring
  · simp only [programSteps, wordSteps, hw, if_false, List.length_cons, List.count_cons_of_ne hw]
    ring

/-- The words of a program take their steps one after the other. -/
theorem State.ReadyFor.endsAfter {nch : Nat} {ws : List Word} {s : State} (h : s.ReadyFor nch ws) :
    s.EndsAfter (programSteps nch ws) := by
  induction ws generalizing s with
  | nil =>
    rw [programSteps_nil]
    exact State.RunOver.endsAfter_zero ⟨h.offered, h.ready⟩
  | cons w ws ih =>
    obtain ⟨hgoes, t, hrun, ht⟩ := h.run_word
    rw [programSteps_cons]
    exact (ih ht).prepend hrun hgoes

end Sys2Proof.Machine

namespace Sys2Proof.Claims

open Sys2Proof.Machine

/-- Settles O32: the meaning of `NOP` is the identity, and its opcode is one of format Z. -/
theorem nopChangesNothing : Obligations.NopChangesNothing :=
  fun s => ⟨rfl, rfl, rejectsZ_of_mem (by decide) s⟩

/-- Settles O46, by induction on the offered words (`State.ReadyFor.endsAfter`). -/
theorem programEndsAfterItsStepCount : Obligations.ProgramEndsAfterItsStepCount :=
  fun _ hinv hquiet hready => State.ReadyFor.endsAfter ⟨hinv, hquiet, hready, rfl, rfl⟩

end Sys2Proof.Claims
end

section
/-! PROOFS of the exception statements (spec/60_exceptions.md): a command on a missing channel (R227, R229), and the
error record, frozen from the first error on (R231) and cleared at reset only (R233). -/

namespace Sys2Proof.Claims

open Sys2Proof.Machine

theorem SameErrorRecord.refl (s : State) : SameErrorRecord s s := ⟨rfl, rfl, rfl⟩

theorem microStep_sameErrorRecord {s t : State} (h : microStep s = .next t) : SameErrorRecord s t := by
  obtain ⟨-, -, -, hstat⟩ := microStep_frame h
  rw [SameErrorRecord, hstat]
  exact ⟨rfl, rfl, rfl⟩

/-- R231: once an error is recorded, no command changes the record. -/
theorem exec_sameErrorRecord_of_err {i : Instr} {s t : State} (herr : s.stat.err = true) (h : exec i s = .next t) :
    SameErrorRecord s t := by
  obtain ⟨-, -, -, -, -, -, -, -, -, -, -, -, -, hrecord⟩ := eachRegisterHasItsWriters i s t h
  simpa [herr, SameErrorRecord] using hrecord

/-- R231: once an error is recorded, no accepted word changes the record. -/
theorem acceptWord_sameErrorRecord_of_err {w : Word} {s t : State} (herr : s.stat.err = true)
    (h : acceptWord w s = .next t) : SameErrorRecord s t := by
  obtain ⟨i, -, h'⟩ | ⟨c, -, h'⟩ := acceptWord_cases w s
  · exact exec_sameErrorRecord_of_err herr (h'.symm.trans h)
  · rw [raiseCmdError_of_err herr] at h'
    cases h'.symm.trans h
    exact .refl s

/-- A step without reset is a micro-step, an acceptance or a pause, and none of them touches a record that stands. -/
theorem step_sameErrorRecord_of_err {s t : State} (hreset : s.resetLevel = false) (herr : s.stat.err = true)
    (h : step s = .next t) : SameErrorRecord s t := by
  obtain ⟨hasserted, -⟩ | ⟨-, -, h⟩ | ⟨-, -, -, rfl⟩ | ⟨-, -, w, ws, -, h⟩ := step_cases h
  · simp [hreset] at hasserted
  · simpa [SameErrorRecord] using microStep_sameErrorRecord h
  · exact .refl s
  · simpa [SameErrorRecord] using acceptWord_sameErrorRecord_of_err (by simpa using herr) h

/-- The flags and the error record are 0 after reset, whether `RESET` is new or held (R43, R250). -/
theorem resetStep_stat (s : State) : (resetStep s).stat = Status.zero := by
  obtain ⟨-, h⟩ | ⟨-, h⟩ := resetStep_cases s <;> simp [h]

/-- Settles O7: without reset by `step_sameErrorRecord_of_err`, with reset by `resetStep_stat`. -/
theorem errorRecordIsStickyUntilReset : Obligations.ErrorRecordIsStickyUntilReset := by
  intro s t h
  refine ⟨fun hreset herr => ?_, fun hreset => ?_⟩
  · obtain ⟨hsticky, hcode, hinfo⟩ := step_sameErrorRecord_of_err hreset herr h
    exact ⟨hsticky.trans herr, hcode, hinfo⟩
  · cases (step_of_reset hreset).symm.trans h
    rw [resetStep_stat]
    exact ⟨rfl, rfl, rfl⟩

/-- Settles O8: such a command is `onChannel`, which raises the error on a channel that does not exist. -/
theorem commandOnMissingChannelOnlyRecords : Obligations.CommandOnMissingChannelOnlyRecords :=
  fun _ _ _ => exec_of_missing_channel

end Sys2Proof.Claims
end

section
/-! PROOFS of the reset and hazard statements (spec/70_reset_and_hazards.md): a new and a held reset (R250, R252), the
host's pause (R262), and the least holding times of a transmission (R263). -/

namespace Sys2Proof.Machine

/-! ### Reset -/

/-- A new assertion of `RESET` is the reset of the block with one entry for the history (R252). -/
theorem step_of_newReset {s : State} (hr : s.resetLevel = true) (hpin : s.host.resetPin = false) :
    step s = .next (blockReset (s.sampleReset true)).emit := by
  obtain ⟨hheld, -⟩ | ⟨-, h⟩ := resetStep_cases s
  · simp [hpin] at hheld
  · rw [step_of_reset hr, h]

/-- A held reset is the reset of the block alone (R250). -/
theorem step_of_heldReset {s : State} (hr : s.resetLevel = true) (hpin : s.host.resetPin = true) :
    step s = .next (blockReset (s.sampleReset true)) := by
  obtain ⟨-, h⟩ | ⟨hnew, -⟩ := resetStep_cases s
  · rw [step_of_reset hr, h]
  · simp [hpin] at hnew

/-- The reset of the block commutes with the sampling of `RESET`, which the host's side alone shows. -/
theorem blockReset_sampleReset (b : Bool) (s : State) :
    blockReset (s.sampleReset b) = (blockReset s).sampleReset b := rfl

/-! ### A pause of the host -/

theorem sequencerStep_of_pause {s : State} (h : s.host.offered = []) : sequencerStep s = .next s := by
  simp [sequencerStep, h]

/-! ### The holding times of a transmission -/

/-- The least time that entry number `n` of a frame is held: `T_PHASE` for each entry of a bit, `T_STROBE` for the
asserted strobe, nothing for its release (R263, log 15). -/
def entryFloor (nch n : Nat) : Nat :=
  if n < 108 * nch then Config.tPhase else if n = 108 * nch then Config.tStrobe else 0

/-- The entries of a frame are held for the bound of R263. -/
theorem sum_entryFloor (nch : Nat) :
    ∑ n ∈ Finset.range (108 * nch + 2), entryFloor nch n = 108 * nch * Config.tPhase + Config.tStrobe := by
  have hbits : ∑ n ∈ Finset.range (108 * nch), entryFloor nch n = 108 * nch * Config.tPhase := by
    have hone : ∀ n ∈ Finset.range (108 * nch), entryFloor nch n = Config.tPhase :=
      fun n hn => if_pos (Finset.mem_range.1 hn)
    simp [Finset.sum_congr rfl hone]
  rw [Finset.sum_range_succ, Finset.sum_range_succ, hbits]
  simp [entryFloor]

section Quiet

variable {s : State} (hinv : s.Inv) (hquiet : s.Quiet)
include hinv hquiet

/-- A busy step that no reset cuts short holds the entry its position counts to. -/
theorem holdFloor_eq_entryFloor (hb : s.stat.busy = true) :
    holdFloor s = entryFloor s.build.nch (s.ser.entryNumber s.build.nch) := by
  have hcases := holdFloor_cases (holdsItsLevels_of_quiet hquiet hb)
  cases hm : s.ser.mode with
  | idle => exact absurd hm (hinv.busy.1 hb)
  | shift =>
    obtain ⟨hch, -, hph⟩ := (Serialiser.legal_shift hm).1 hinv.ser
    have hlt := bitNumber_lt hch s.ser.comp s.ser.bit
    rw [s.ser.entryNumber_shift hm, entryFloor, if_pos (by omega)]
    simpa [hm] using hcases
  | strobe =>
    rw [s.ser.entryNumber_strobe hm]
    by_cases hph : s.ser.ph = 0 <;> simpa [hm, hph, entryFloor] using hcases

/-- `k` steps that no reset cuts short, from where `n` entries of a frame are sent, hold its next `k` entries. -/
theorem elapsedFloor_eq_sum {nch n k : Nat} (hnch : s.build.nch = nch) (hcount : s.ser.entryNumber nch = n)
    (hk : n + k ≤ 108 * nch + 2) : elapsedFloor k s = ∑ i ∈ Finset.range k, entryFloor nch (n + i) := by
  induction k generalizing s n with
  | zero => rfl
  | succ k ih =>
    subst hnch hcount
    have hbusy : s.stat.busy = true := by
      rw [hinv.busy_iff_entryNumber]
      omega
    obtain ⟨p, ser, busy, hstep, -, hnext⟩ := step_sends hinv hquiet.resetLevel hbusy
    have hrest := ih (Claims.everyStepKeepsTheInvariant s _ hinv hstep) (hquiet.sampleReset false) rfl hnext (by omega)
    calc elapsedFloor (k + 1) s
        = holdFloor s + elapsedFloor k (s.sendEntry p ser busy) := by rw [elapsedFloor, hstep]
      _ = entryFloor s.build.nch (s.ser.entryNumber s.build.nch) +
          ∑ i ∈ Finset.range k, entryFloor s.build.nch (s.ser.entryNumber s.build.nch + 1 + i) := by
        rw [holdFloor_eq_entryFloor hinv hquiet hbusy, hrest]
      _ = _ := by simp only [Finset.sum_range_succ', Nat.add_assoc, Nat.add_comm, Nat.zero_add]

end Quiet

end Sys2Proof.Machine

namespace Sys2Proof.Claims

open Sys2Proof.Machine

/-! ### The statements -/

/-- Settles O45: after `XMIT` the steps hold the frame's entries from the first to the last. -/
theorem holdFloorsOfATransmissionAddUpToTheBound : Obligations.HoldFloorsOfATransmissionAddUpToTheBound := by
  intro s t ws h hstep
  cases (step_xmit h).symm.trans hstep
  obtain ⟨hinv, hquiet, -⟩ := h
  have hsent := elapsedFloor_eq_sum (nch := s.build.nch) (everyStepKeepsTheInvariant s _ hinv hstep)
    (hquiet.sampleReset false) rfl (entryNumber_firstPosition _) (Nat.zero_add _).le
  simpa [sum_entryFloor] using hsent

/-- Settles O11: with nothing offered the sequencer only samples `RESET`. -/
theorem hostPauseChangesNothing : Obligations.HostPauseChangesNothing := by
  intro s hr hb hoffered
  rw [step_of_ready hr hb]
  exact sequencerStep_of_pause hoffered

/-- Settles O12: the low pins of the reset raise no line of the chain. -/
theorem resetAssertionTakesResetValues : Obligations.ResetAssertionTakesResetValues := by
  intro s hr hpin
  have hchain : (blockReset (s.sampleReset true)).emit.chain = { s.chain with oe := true } := by simp
  exact ⟨_, step_of_newReset hr hpin, fun _ _ => rfl, rfl, rfl, rfl, rfl, rfl, by rw [hchain], by rw [hchain], rfl⟩

/-- Settles O13: a block held in its reset state is its own reset. -/
theorem heldResetChangesNothing : Obligations.HeldResetChangesNothing := by
  intro s hr hpin hheld
  rw [step_of_heldReset hr hpin, blockReset_sampleReset, hheld hpin, State.sampleReset, ← hpin]

end Sys2Proof.Claims
end
